-- ==== Sys2Proof/Word.lean ====
section
/-! DEFINITION. The word and byte types of the wavetable_oscillator block. -/

namespace Sys2Proof

/-- One 32-bit word: a command or operand word, a register, a TMEM word, response data
(spec/00_scope.md R8, parameter `WORD`). -/
abbrev Word := BitVec 32

/-- One byte of the host's little-endian byte image of TMEM (spec/20_memory.md R45). -/
abbrev Byte := BitVec 8

end Sys2Proof
end

