-- ==== Sys2Proof/Syntax.lean ====
section
/-! DEFINITION. Packets and instructions: one constructor for each row of spec/opcode_table.json. -/

namespace Sys2Proof

/-- A command packet: four words, always all present (spec/30_encoding.md R60). -/
structure Packet where
  cmd : Word
  w1 : Word
  w2 : Word
  w3 : Word
  deriving DecidableEq, Repr

/-- The ten commands (spec/30_encoding.md R66, R68). An operand named `w1`, `w2` or `w3` is a word the
command ignores; it is carried so that a decoded packet is known whole (notes/assumptions/16.md), and no
meaning reads it but to record an offending packet. `len` and `tbase` are the unsigned integers of R64 and R67. -/
inductive Instr where
  /-- `init sr` (spec/41_control.md R110). -/
  | init (sr w2 w3 : Word)
  /-- `play.floor len, f, o, tbase` (spec/40_play.md R90). -/
  | playFloor (len : Nat) (f o : Word) (tbase : Nat)
  /-- `play.linear len, f, o, tbase` (spec/40_play.md R91). -/
  | playLinear (len : Nat) (f o : Word) (tbase : Nat)
  /-- `play.cubic len, f, o, tbase` (spec/40_play.md R92). -/
  | playCubic (len : Nat) (f o : Word) (tbase : Nat)
  /-- `setsr sr` (spec/41_control.md R112). -/
  | setsr (sr w2 w3 : Word)
  /-- `rd.status` (spec/41_control.md R113). -/
  | rdStatus (w1 w2 w3 : Word)
  /-- `rd.phase` (spec/41_control.md R114). -/
  | rdPhase (w1 w2 w3 : Word)
  /-- `rd.srrecip` (spec/41_control.md R115). -/
  | rdSrrecip (w1 w2 w3 : Word)
  /-- `clrst` (spec/41_control.md R116). -/
  | clrst (w1 w2 w3 : Word)
  /-- `release` (spec/41_control.md R117). -/
  | release (w1 w2 w3 : Word)
  deriving DecidableEq, Repr

end Sys2Proof
end

