-- ==== Sys2Proof/Decode.lean ====
section
/-! DEFINITION. The decoder of a packet, total on any four words, and the encoder (spec/30_encoding.md). -/

namespace Sys2Proof

/-- OP = CMD[3:0] (spec/30_encoding.md R62). -/
def opField (cmd : Word) : BitVec 4 := cmd.extractLsb' 0 4

/-- MBZ = CMD[7:4] (spec/30_encoding.md R63). -/
def mbzField (cmd : Word) : BitVec 4 := cmd.extractLsb' 4 4

/-- ARG = CMD[31:8]; for a PLAY it is LEN (spec/30_encoding.md R61, R64). -/
def argField (cmd : Word) : BitVec 24 := cmd.extractLsb' 8 24

/-- SEL = CMD[9:8] (spec/30_encoding.md R65). -/
def selField (cmd : Word) : BitVec 2 := cmd.extractLsb' 8 2

/-- MBZ2 = CMD[31:10], which must be zero in the read group (spec/30_encoding.md R61, R65). -/
def mbz2Field (cmd : Word) : BitVec 22 := cmd.extractLsb' 10 22

/-- Why a command word is illegal, in the order of the list in spec/30_encoding.md R69. Each is answered by
fail(1); none stops the machine. -/
inductive DecodeError where
  /-- OP is 0x0 or 0x9 to 0xF. -/
  | reservedOp
  /-- CMD[7:4] is not zero. -/
  | mbzNotZero
  /-- CMD[31:8] is not zero for INIT, SETSR, CLRST or RELEASE. -/
  | argNotZero
  /-- SEL is 3 in the read group. -/
  | reservedSelect
  /-- CMD[31:10] is not zero in the read group. -/
  | selectArgNotZero
  deriving DecidableEq, Repr

/-- A command without an ARG field: ARG must be zero (spec/30_encoding.md R69). -/
def withoutArg (cmd : Word) (i : Instr) : Except DecodeError Instr :=
  if argField cmd = 0#24 then .ok i else .error .argNotZero

/-- The read group: SEL names the register (spec/30_encoding.md R65). -/
def decodeRead (p : Packet) : Except DecodeError Instr :=
  if mbz2Field p.cmd = 0#22 then
    match (selField p.cmd).toNat with
    | 0 => .ok (.rdStatus p.w1 p.w2 p.w3)
    | 1 => .ok (.rdPhase p.w1 p.w2 p.w3)
    | 2 => .ok (.rdSrrecip p.w1 p.w2 p.w3)
    | _ => .error .reservedSelect
  else .error .selectArgNotZero

/-- Decode a packet. The command word alone decides which row of the opcode map matches; the operand words
are taken bit for bit (spec/30_encoding.md R66 to R69, R73). -/
def decode (p : Packet) : Except DecodeError Instr :=
  if mbzField p.cmd = 0#4 then
    match (opField p.cmd).toNat with
    | 1 => withoutArg p.cmd (.init p.w1 p.w2 p.w3)
    | 2 => .ok (.playFloor (argField p.cmd).toNat p.w1 p.w2 p.w3.toNat)
    | 3 => .ok (.playLinear (argField p.cmd).toNat p.w1 p.w2 p.w3.toNat)
    | 4 => .ok (.playCubic (argField p.cmd).toNat p.w1 p.w2 p.w3.toNat)
    | 5 => withoutArg p.cmd (.setsr p.w1 p.w2 p.w3)
    | 6 => decodeRead p
    | 7 => withoutArg p.cmd (.clrst p.w1 p.w2 p.w3)
    | 8 => withoutArg p.cmd (.release p.w1 p.w2 p.w3)
    | _ => .error .reservedOp
  else .error .mbzNotZero

/-- One row of the opcode map: a command word belongs to it when `(CMD & mask) == pattern`
(spec/30_encoding.md R68). -/
structure OpcodeRow where
  mnemonic : String
  pattern : Word
  mask : Word
  deriving DecidableEq, Repr

/-- A command word matches a row (spec/30_encoding.md R68). -/
def OpcodeRow.hit (r : OpcodeRow) (cmd : Word) : Bool := cmd &&& r.mask == r.pattern

/-- The opcode map as spec/30_encoding.md R68 and spec/opcode_table.json list it. The decoder does not use it:
that the two agree is a statement. -/
def opcodeMap : List OpcodeRow := [
  ⟨"INIT", 0x00000001#32, 0xFFFFFFFF#32⟩,
  ⟨"PLAY.FLOOR", 0x00000002#32, 0x000000FF#32⟩,
  ⟨"PLAY.LINEAR", 0x00000003#32, 0x000000FF#32⟩,
  ⟨"PLAY.CUBIC", 0x00000004#32, 0x000000FF#32⟩,
  ⟨"SETSR", 0x00000005#32, 0xFFFFFFFF#32⟩,
  ⟨"RD.STATUS", 0x00000006#32, 0xFFFFFFFF#32⟩,
  ⟨"RD.PHASE", 0x00000106#32, 0xFFFFFFFF#32⟩,
  ⟨"RD.SRRECIP", 0x00000206#32, 0xFFFFFFFF#32⟩,
  ⟨"CLRST", 0x00000007#32, 0xFFFFFFFF#32⟩,
  ⟨"RELEASE", 0x00000008#32, 0xFFFFFFFF#32⟩]

/-- The mnemonic of an instruction, as the opcode map spells it (spec/30_encoding.md R68). -/
def Instr.mnemonic : Instr → String
  | .init _ _ _ => "INIT"
  | .playFloor _ _ _ _ => "PLAY.FLOOR"
  | .playLinear _ _ _ _ => "PLAY.LINEAR"
  | .playCubic _ _ _ _ => "PLAY.CUBIC"
  | .setsr _ _ _ => "SETSR"
  | .rdStatus _ _ _ => "RD.STATUS"
  | .rdPhase _ _ _ => "RD.PHASE"
  | .rdSrrecip _ _ _ => "RD.SRRECIP"
  | .clrst _ _ _ => "CLRST"
  | .release _ _ _ => "RELEASE"

/-- The packet of a PLAY: CMD is the length above the zero MBZ field and the opcode
(spec/40_play.md R90 to R92). -/
def playPacket (op : BitVec 4) (len : Nat) (f o : Word) (tbase : Nat) : Packet :=
  ⟨BitVec.ofNat 24 len ++ 0#4 ++ op, f, o, BitVec.ofNat 32 tbase⟩

/-- The packet of an instruction (spec/30_encoding.md R61, R66, R68). -/
def encode : Instr → Packet
  | .init sr w2 w3 => ⟨0x00000001#32, sr, w2, w3⟩
  | .playFloor len f o tbase => playPacket 2#4 len f o tbase
  | .playLinear len f o tbase => playPacket 3#4 len f o tbase
  | .playCubic len f o tbase => playPacket 4#4 len f o tbase
  | .setsr sr w2 w3 => ⟨0x00000005#32, sr, w2, w3⟩
  | .rdStatus w1 w2 w3 => ⟨0x00000006#32, w1, w2, w3⟩
  | .rdPhase w1 w2 w3 => ⟨0x00000106#32, w1, w2, w3⟩
  | .rdSrrecip w1 w2 w3 => ⟨0x00000206#32, w1, w2, w3⟩
  | .clrst w1 w2 w3 => ⟨0x00000007#32, w1, w2, w3⟩
  | .release w1 w2 w3 => ⟨0x00000008#32, w1, w2, w3⟩

/-- The packet whose bits are `w`, bit 0 the least significant bit of CMD and each later word's bits counting
on from there; every bit from `nbits` up is 0 (notes/assumptions/18.md). -/
def packetOfTableWord (nbits w : Nat) : Packet :=
  let v := w % 2 ^ nbits
  ⟨BitVec.ofNat 32 v, BitVec.ofNat 32 (v / 2 ^ 32), BitVec.ofNat 32 (v / 2 ^ 64), BitVec.ofNat 32 (v / 2 ^ 96)⟩

/-- The instruction the decoder reads from the packet with the bits `w`, none where the word is illegal. -/
def decodeTableWord (nbits w : Nat) : Option Instr :=
  match decode (packetOfTableWord nbits w) with
  | .ok i => some i
  | .error _ => none

end Sys2Proof
end

