-- ==== Sys2Proof/Config.lean ====
section
/-! DEFINITION. What the spec leaves to the implementation, as constants without a value. -/

namespace Sys2Proof

/-- The highest word address of TMEM at power-up: TMEM_WORDS minus 1, so that TMEM_WORDS is any integer
from 1 to 2^32 (spec/00_scope.md R8, OPEN; notes/assumptions/1.md). -/
opaque Config.tmemTop : Word

/-- The contents of TMEM at power-up, TMEM_INIT, as cells of the byte image (spec/00_scope.md R8, OPEN;
spec/70_reset_and_hazards.md R152; notes/assumptions/2.md). -/
opaque Config.tmemInit : List Host.Cell

/-- The bit pattern a NaN would be written as: any value, never observable, since no NaN is stored or
returned (spec/00_scope.md R13; spec/93_implementation_defined.md U8; notes/assumptions/10.md). -/
opaque Config.nanBits : Word

end Sys2Proof
end

