-- ==== Sys2Proof/Machine/Binary32.lean ====
section
/-! DEFINITION. The binary32 numbers and operations of spec/00_scope.md R11 to R16.

Every finite binary32 value is a whole number of units of 2^-149, so exact values are integers counted in these
units, and every operation computes exactly and rounds once (notes/assumptions/9.md). -/

namespace Sys2Proof.Machine

/-- A binary32 value: a sign and a magnitude in units of 2^-149, an infinity, or a NaN, whose payload is never
observable (spec/00_scope.md R11, R13). -/
inductive Val where
  | finite (neg : Bool) (mag : Nat)
  | inf (neg : Bool)
  | nan
  deriving DecidableEq, Repr

/-- The units of 2^-149 in the number 1. -/
def unitsPerOne : Nat := 2 ^ 149

/-- `finite(v)` (spec/00_scope.md R11). -/
def Val.isFinite : Val → Bool
  | .finite _ _ => true
  | .inf _ => false
  | .nan => false

/-- The exact value of a finite `v` in units of 2^-149. No meaning reads it for a value that is not finite. -/
def Val.units : Val → Int
  | .finite neg mag => if neg then -(mag : Int) else (mag : Int)
  | .inf _ => 0
  | .nan => 0

/-- `f32(w)`: the value of a 32-bit pattern (spec/00_scope.md R10, R11). -/
def f32 (w : Word) : Val :=
  let neg := w.getLsbD 31
  let e := (w.extractLsb' 23 8).toNat
  let m := (w.extractLsb' 0 23).toNat
  if e = 255 then (if m = 0 then .inf neg else .nan)
  else if e = 0 then .finite neg m
  else .finite neg ((2 ^ 23 + m) * 2 ^ (e - 1))

/-- The exponent of the quantum of a magnitude: the power of two, in units of 2^-149, that a 24-bit significand
of this magnitude counts in; 0 for subnormals and the smallest normals (spec/00_scope.md R11). -/
def quantumExp (mag : Nat) : Nat := mag.log2 - 23

/-- The pattern with a sign bit and the other 31 bits. -/
def signed (neg : Bool) (pattern : Nat) : Word :=
  BitVec.ofBool neg ++ BitVec.ofNat 31 pattern

/-- `bits(v)`: the pattern of a binary32 value (spec/00_scope.md R10, R11). A NaN has no pattern of its own in
the model; `Config.nanBits` stands for it and is never reached (notes/assumptions/10.md). -/
def Val.bits : Val → Word
  | .finite neg mag => signed neg (quantumExp mag * 2 ^ 23 + mag / 2 ^ quantumExp mag)
  | .inf neg => signed neg 0x7F800000
  | .nan => Config.nanBits

/-- `num / den` rounded to the nearest integer, a tie to the even one (spec/00_scope.md R12). -/
def nearestEven (num den : Nat) : Nat :=
  let q := num / den
  let twice := 2 * (num % den)
  if den < twice then q + 1
  else if twice = den ∧ q % 2 = 1 then q + 1
  else q

/-- `rnd`: the binary32 value of the exact magnitude `num / den` units of 2^-149 with sign `neg`
(spec/00_scope.md R12). The significand has 24 bits, so the magnitude is rounded to a multiple of its quantum;
a quantum above the largest finite value's, or a carry out of the largest finite value, is an overflow. -/
def rnd (neg : Bool) (num den : Nat) : Val :=
  let e := quantumExp (num / den)
  if 253 < e then .inf neg
  else
    let sig := nearestEven num (den * 2 ^ e)
    if e = 253 ∧ sig = 2 ^ 24 then .inf neg
    else .finite neg (sig * 2 ^ e)

/-- The value with the opposite sign. -/
def fneg : Val → Val
  | .finite neg mag => .finite (!neg) mag
  | .inf neg => .inf (!neg)
  | .nan => .nan

/-- `a + b` (spec/00_scope.md R13). An exact zero sum is +0, but (-0) + (-0) is -0. -/
def fadd : Val → Val → Val
  | .nan, _ => .nan
  | .inf _, .nan => .nan
  | .finite _ _, .nan => .nan
  | .inf x, .inf y => if x = y then .inf x else .nan
  | .inf x, .finite _ _ => .inf x
  | .finite _ _, .inf y => .inf y
  | .finite x a, .finite y b =>
    let sum := (Val.finite x a).units + (Val.finite y b).units
    if sum = 0 then .finite (x && y) 0 else rnd (decide (sum < 0)) sum.natAbs 1

/-- `a - b` (spec/00_scope.md R13): the sum with the opposite of `b`. -/
def fsub (a b : Val) : Val := fadd a (fneg b)

/-- `a * b` (spec/00_scope.md R13). The sign is the XOR of the signs, also of a zero; Inf * 0 is NaN. -/
def fmul : Val → Val → Val
  | .nan, _ => .nan
  | .inf _, .nan => .nan
  | .finite _ _, .nan => .nan
  | .inf x, .inf y => .inf (x != y)
  | .inf x, .finite y b => if b = 0 then .nan else .inf (x != y)
  | .finite x a, .inf y => if a = 0 then .nan else .inf (x != y)
  | .finite x a, .finite y b => rnd (x != y) (a * b) unitsPerOne

/-- `a / b` (spec/00_scope.md R13). The cases of a zero or non-finite divisor and of a non-finite dividend are
the IEEE 754 ones. PRESUMED, safe: notes/assumptions/11.md. -/
def fdiv : Val → Val → Val
  | .nan, _ => .nan
  | .inf _, .nan => .nan
  | .finite _ _, .nan => .nan
  | .inf _, .inf _ => .nan
  | .inf x, .finite y _ => .inf (x != y)
  | .finite x _, .inf y => .finite (x != y) 0
  | .finite x a, .finite y b =>
    if b = 0 then (if a = 0 then .nan else .inf (x != y))
    else rnd (x != y) (a * unitsPerOne) b

/-- `f32_of_int(n)`, exact for 0 <= n <= 2^24 (spec/00_scope.md R16). -/
def ofInt (n : Nat) : Val := .finite false (n * unitsPerOne)

/-- `wrap(x, len)` of the finite value `x` units: the exact floored remainder, rounded once; a remainder that
rounds up to `len` is +0.0, and so is a zero (spec/00_scope.md R15). -/
def wrap (x : Int) (len : Nat) : Val :=
  let r := x % ((len * unitsPerOne : Nat) : Int)
  let y := rnd false r.toNat 1
  if y = ofInt len then .finite false 0 else y

/-- `ifloor(pos)`, the integer part of a position, in table entries (spec/00_scope.md R16). -/
def ifloor (pos : Val) : Nat := pos.units.toNat / unitsPerOne

/-- `frac(pos)`, the part of a position after the point; exact (spec/00_scope.md R16). -/
def frac (pos : Val) : Val := .finite false (pos.units.toNat % unitsPerOne)

end Sys2Proof.Machine
end

