-- ==== Sys2Proof/Machine/State.lean ====
section
/-! DEFINITION. The state of the block and of its port, the reasons a step can stop, and the state after reset. -/

namespace Sys2Proof.Machine

/-- The register STATE: its three legal values; the 2-bit code 3 is never held (spec/10_state.md R22). -/
inductive Lifecycle where
  /-- No engine constructed: after reset, or after an INIT that failed (code 0). -/
  | uninit
  /-- Constructed by a successful INIT (code 1). -/
  | ready
  /-- Destroyed by RELEASE (code 2). -/
  | released
  deriving DecidableEq, Repr

/-- The causes a command can fail with, codes 1 to 7; code 0 is success and 8 to 15 are never produced
(spec/60_exceptions.md R130). -/
inductive Cause where
  /-- 1: the command word matches no row of the opcode map. -/
  | illegal
  /-- 2: the command needs READY but STATE is UNINIT. -/
  | state
  /-- 3: the sample rate is not valid. -/
  | sr
  /-- 4: the table length is 0. -/
  | len0
  /-- 5: the table does not fit in TMEM. -/
  | range
  /-- 6: the phase arithmetic is not finite. -/
  | numeric
  /-- 7: the interpolated sample is not finite. -/
  | sample
  deriving DecidableEq, Repr

/-- The response of a packet: DATA and CAUSE (spec/30_encoding.md R70). -/
structure Response where
  data : Word
  cause : BitVec 4
  deriving DecidableEq, Repr

/-- One interaction of the host with the block; the spec says that there are no others
(spec/70_reset_and_hazards.md R156). -/
inductive HostInput where
  /-- A packet is issued. -/
  | command (p : Packet)
  /-- The host writes a TMEM word, between two commands. -/
  | tableWrite (addr : Nat) (word : Word)
  /-- Reset is asserted; `cut` is the command in progress at that moment, if one was
  (spec/70_reset_and_hazards.md R150, R151). -/
  | reset (cut : Option Packet)
  deriving DecidableEq, Repr

/-- The reason of a model fault (spec/10_state.md R29: "Its reason is one of UseAfterRelease"). -/
inductive FaultReason where
  /-- A command that is not defined in RELEASED was issued there (spec/60_exceptions.md R136). -/
  | useAfterRelease
  deriving DecidableEq, Repr

/-- What the mark FAULTED records: its reason and the offending packet (spec/10_state.md R29). -/
structure FaultRecord where
  reason : FaultReason
  packet : Packet
  deriving DecidableEq, Repr

/-- The block's registers, its table memory, the model-only mark FAULTED and the port to the host.
STATUS is no field of its own: it is the view `State.statusWord` of `lifecycle`, `flags` and `lastCause`
(spec/10_state.md R23; notes/assumptions/17.md). -/
structure State where
  /-- PHASE, the phase accumulator, a binary32 pattern (spec/10_state.md R20). -/
  phase : Word
  /-- SR_RECIP, the cached sample-rate reciprocal, a binary32 pattern (spec/10_state.md R21). -/
  srRecip : Word
  /-- STATE, seen as STATUS[1:0] (spec/10_state.md R22). -/
  lifecycle : Lifecycle
  /-- The sticky flags STATUS[10:4], bit 0 of the field being E_ILLEGAL (spec/10_state.md R23, R24). -/
  flags : BitVec 7
  /-- LAST_CAUSE, STATUS[19:16] (spec/10_state.md R25). -/
  lastCause : BitVec 4
  /-- What the host has written of TMEM, as a byte image in the canonical form `Memory.wf`; a byte it does not
  list is as `tmemInit` has it (spec/20_memory.md R40, R45). -/
  mem : List Host.Cell
  /-- TMEM_INIT, the contents of TMEM at power-up: a parameter, written by no step (spec/00_scope.md R8;
  spec/70_reset_and_hazards.md R152; notes/assumptions/2.md). -/
  tmemInit : List Host.Cell
  /-- TMEM_WORDS minus 1: a parameter, written by no step (spec/00_scope.md R8; notes/assumptions/1.md). -/
  tmemTop : Word
  /-- The model-only mark FAULTED, with its record when set (spec/10_state.md R29). -/
  faulted : Option FaultRecord
  /-- The model's own: the host's interactions still to come, in order of issue (notes/assumptions/5.md). -/
  inputs : List HostInput
  /-- The model's own: the response the last step produced, if it produced one (notes/assumptions/6.md). -/
  response : Option Response
  deriving DecidableEq, Repr

/-- How a step can stop with a fault. -/
inductive Fault where
  /-- Raised by SETSR, the PLAY commands, RD.PHASE, RD.SRRECIP and RELEASE while STATE is RELEASED, and by every
  step of a state whose mark FAULTED is set; `s` is the state with the mark set, otherwise as it was
  (spec/60_exceptions.md R136; spec/10_state.md R29). Safe: the source calls the behaviour undefined, and no
  claim about a next state can be proved through it. -/
  | useAfterRelease (s : State)
  /-- Raised by a host table write at a word address TMEM does not have (spec/20_memory.md R40;
  notes/assumptions/7.md). Safe: the spec gives such a write no effect. -/
  | tableWriteOutsideTmem (addr : Nat)
  deriving DecidableEq, Repr

/-- How a step can stop with a refusal. -/
inductive Refusal where
  /-- Raised by an arm of `exec` whose instruction has no meaning yet; no arm of this model is such. Safe. -/
  | notModelled (mnemonic : String)
  deriving DecidableEq, Repr

/-- TMEM_WORDS, the number of words of TMEM, from 1 to 2^32 (spec/00_scope.md R8). -/
def State.tmemWords (s : State) : Nat := s.tmemTop.toNat + 1

/-- The machine right after reset: every register at the value of spec/10_state.md (spec/70_reset_and_hazards.md
R150), nothing of TMEM written, TMEM_INIT and TMEM_WORDS unconstrained (notes/assumptions/2.md and 1.md), no fault recorded
(19.md), no interaction pending and no response (5.md, 6.md). -/
def State.reset : State where
  phase := 0x00000000#32
  srRecip := 0x00000000#32
  lifecycle := .uninit
  flags := 0#7
  lastCause := 0#4
  mem := []
  tmemInit := Config.tmemInit
  tmemTop := Config.tmemTop
  faulted := none
  inputs := []
  response := none

end Sys2Proof.Machine
end

