-- ==== Sys2Proof/Machine/Flags.lean ====
section
/-! DEFINITION. The status register: cause codes, sticky flags, LAST_CAUSE and the STATUS word
(spec/10_state.md R22 to R25; spec/60_exceptions.md R130). -/

namespace Sys2Proof.Machine

/-- The cause code (spec/60_exceptions.md R130). -/
def Cause.code : Cause → BitVec 4
  | .illegal => 1#4
  | .state => 2#4
  | .sr => 3#4
  | .len0 => 4#4
  | .range => 5#4
  | .numeric => 6#4
  | .sample => 7#4

/-- The 2-bit code of STATE (spec/10_state.md R22). -/
def Lifecycle.code : Lifecycle → BitVec 2
  | .uninit => 0#2
  | .ready => 1#2
  | .released => 2#2

/-- The field STATUS[10:4] with only the flag of a cause set: the flag of cause code c is STATUS[c + 3], bit
c - 1 of the field (spec/10_state.md R23). -/
def Cause.flag (c : Cause) : BitVec 7 := 1#7 <<< (c.code.toNat - 1)

/-- The STATUS word: STATE in bits 1:0, the flags in 10:4, LAST_CAUSE in 19:16, zeros in the reserved bits
(spec/10_state.md R23). -/
def State.statusWord (s : State) : Word :=
  0#12 ++ s.lastCause ++ 0#5 ++ s.flags ++ 0#2 ++ s.lifecycle.code

/-- The status half of `fail(c)`: the flag of `c` is set, no other flag changes, LAST_CAUSE is the code
(spec/10_state.md R24, R25; spec/60_exceptions.md R133). -/
def State.recordCause (s : State) (c : Cause) : State :=
  { s with flags := s.flags ||| c.flag, lastCause := c.code }

/-- The status half of CLRST: all flags and LAST_CAUSE are cleared (spec/41_control.md R116). -/
def State.clearCauses (s : State) : State :=
  { s with flags := 0#7, lastCause := 0#4 }

end Sys2Proof.Machine
end

