-- ==== Sys2Proof/Machine/Memory.lean ====
section
/-! DEFINITION. TMEM: reading and writing its byte image (spec/20_memory.md).

The image is a list of (byte address, byte) cells over the power-up contents `init`, with addresses strictly rising
and no cell equal to what an unlisted address reads as. The block reads whole words only; byte 4a + k of the image
is bits 8k+7 to 8k of word a (R45). -/

namespace Sys2Proof.Machine

/-- What an unlisted byte reads as: the byte of the power-up contents TMEM_INIT (spec/00_scope.md R8;
spec/70_reset_and_hazards.md R152). `init` names it by its first cell for the address, and 0x00 where it has none:
TMEM is finite, so every contents is such a list (notes/assumptions/2.md). -/
def Memory.unwritten : List Host.Cell → Nat → Byte
  | [], _ => 0#8
  | (b, v) :: m, a => if b = a then v else Memory.unwritten m a

/-- The canonical form of a byte image over the power-up contents `init`. -/
abbrev Memory.wf (init m : List Host.Cell) : Prop :=
  m.Pairwise (fun c d => c.1 < d.1) ∧ ∀ c ∈ m, c.2 ≠ Memory.unwritten init c.1

/-- The byte at address `a`. -/
def Memory.readByte (init : List Host.Cell) : List Host.Cell → Nat → Byte
  | [], a => Memory.unwritten init a
  | (b, v) :: m, a => if b = a then v else Memory.readByte init m a

/-- The cells of an image that is to hold `v` at `a` before the cells `m`, all of which lie above `a`. -/
def Memory.cons (init : List Host.Cell) (a : Nat) (v : Byte) (m : List Host.Cell) : List Host.Cell :=
  if v = Memory.unwritten init a then m else (a, v) :: m

/-- The image with the byte at `a` set to `v`. -/
def Memory.writeByte (init : List Host.Cell) : List Host.Cell → Nat → Byte → List Host.Cell
  | [], a, v => Memory.cons init a v []
  | (b, u) :: m, a, v =>
    if a < b then Memory.cons init a v ((b, u) :: m)
    else if a = b then Memory.cons init a v m
    else (b, u) :: Memory.writeByte init m a v

/-- Byte `k` of a word: its bits 8k+7 to 8k (spec/20_memory.md R45). -/
def byteOf (w : Word) (k : Nat) : Byte := w.extractLsb' (8 * k) 8

/-- `MemRead(a, 4)`: the word at word address `a` (spec/20_memory.md R42, R45). -/
def Memory.readWord (init m : List Host.Cell) (a : Nat) : Word :=
  Memory.readByte init m (4 * a + 3) ++ Memory.readByte init m (4 * a + 2) ++ Memory.readByte init m (4 * a + 1)
    ++ Memory.readByte init m (4 * a)

/-- The host's write of the word at word address `a` (spec/20_memory.md R45, R51). -/
def Memory.writeWord (init m : List Host.Cell) (a : Nat) (w : Word) : List Host.Cell :=
  let m0 := Memory.writeByte init m (4 * a) (byteOf w 0)
  let m1 := Memory.writeByte init m0 (4 * a + 1) (byteOf w 1)
  let m2 := Memory.writeByte init m1 (4 * a + 2) (byteOf w 2)
  Memory.writeByte init m2 (4 * a + 3) (byteOf w 3)

end Sys2Proof.Machine
end

