-- ==== Sys2Proof/Machine/Ops.lean ====
section
/-! DEFINITION. The named operations over registers, TMEM and the port: register writes, the two ends of a
command (`respond`, `fail`), the model fault, reset and the host's table write. -/

namespace Sys2Proof.Machine

/-- What an instruction's meaning and a step answer. -/
abbrev Result := Host.Outcome State Fault Refusal

/-- `PHASE <- w`. -/
def State.setPhase (s : State) (w : Word) : State := { s with phase := w }

/-- `SR_RECIP <- w`. -/
def State.setSrRecip (s : State) (w : Word) : State := { s with srRecip := w }

/-- `STATE <- l`. -/
def State.setLifecycle (s : State) (l : Lifecycle) : State := { s with lifecycle := l }

/-- The host's interactions that are still to come. -/
def State.setInputs (s : State) (inputs : List HostInput) : State := { s with inputs := inputs }

/-- The step produces no response: it performs no packet, or the packet raises the model fault or is cut by
reset (spec/30_encoding.md R70; spec/70_reset_and_hazards.md R151, R156). -/
def State.noResponse (s : State) : State := { s with response := none }

/-- `MemRead(a, 4)` of the state's TMEM (spec/20_memory.md R42). -/
def State.memRead (s : State) (a : Nat) : Word := Memory.readWord s.tmemInit s.mem a

/-- The byte at address `a` of TMEM's byte image, for the host only: the block reads words
(spec/20_memory.md R45). -/
def State.memByte (s : State) (a : Nat) : Byte := Memory.readByte s.tmemInit s.mem a

/-- `respond(data, 0)`: the success end of a command (spec/30_encoding.md R70). -/
def State.respond (s : State) (data : Word) : State :=
  { s with response := some ⟨data, 0#4⟩ }

/-- `fail(c)`: the error end of a command, in place of a trap: the cause is recorded in STATUS and the response
is DATA 0 with the cause code (spec/60_exceptions.md R133, R134). -/
def State.fail (s : State) (c : Cause) : State :=
  { s.recordCause c with response := some ⟨0x00000000#32, c.code⟩ }

/-- The state that `raise Fault(UseAfterRelease)` leaves: the mark FAULTED is set with the offending packet, no
register is written, no response is produced (spec/60_exceptions.md R136; spec/10_state.md R29). -/
def State.markFaulted (s : State) (p : Packet) : State :=
  { s.noResponse with faulted := some ⟨.useAfterRelease, p⟩ }

/-- `raise Fault(UseAfterRelease)` for the packet `p` (spec/60_exceptions.md R136). -/
def raiseFault (p : Packet) (s : State) : Result := .fault (.useAfterRelease (s.markFaulted p))

/-- The registers at their reset values; TMEM with its two parameters and FAULTED are not touched, and there is no response
(spec/70_reset_and_hazards.md R150 to R152). -/
def State.resetRegisters (s : State) : State :=
  { s with
    phase := 0x00000000#32
    srRecip := 0x00000000#32
    lifecycle := .uninit
    flags := 0#7
    lastCause := 0#4
    response := none }

/-- The host writes the TMEM word `a`; an address TMEM does not have is a fault
(spec/20_memory.md R40, R51; spec/70_reset_and_hazards.md R156; notes/assumptions/7.md). -/
def hostTableWrite (a : Nat) (w : Word) (s : State) : Result :=
  if a < s.tmemWords then .next { s.noResponse with mem := Memory.writeWord s.tmemInit s.mem a w }
  else .fault (.tableWriteOutsideTmem a)

end Sys2Proof.Machine
end

