-- ==== Sys2Proof/Machine/Operands.lean ====
section
/-! DEFINITION. What the operand words of a command stand for: the sample rate and its reciprocal, the phase
operands of a PLAY, its table and the indices into it. -/

namespace Sys2Proof.Machine

/-- The number 1.0. -/
def one : Val := ofInt 1

/-- `1.0 / sr`, one division rounded once (spec/41_control.md R110). -/
def reciprocal (sr : Word) : Val := fdiv one (f32 sr)

/-- `valid_sr(sr)`: the rate is finite and positive and its reciprocal is finite (spec/41_control.md R111). -/
def validSr (sr : Word) : Bool :=
  (f32 sr).isFinite && decide (0 < (f32 sr).units) && (reciprocal sr).isFinite

/-- `inc = (f * Lf) * SR_RECIP` (spec/40_play.md R81). -/
def phaseIncrement (len : Nat) (f srRecip : Word) : Val :=
  fmul (fmul (f32 f) (ofInt len)) (f32 srRecip)

/-- `off = o * Lf` (spec/40_play.md R82). -/
def phaseOffset (len : Nat) (o : Word) : Val := fmul (f32 o) (ofInt len)

/-- The phase path of a PLAY before any wrap: `inc`, `off`, `s = PHASE + off` and `n = PHASE + inc`
(spec/40_play.md R81, R82, R87). -/
structure PhasePath where
  inc : Val
  off : Val
  sum : Val
  next : Val
  deriving DecidableEq, Repr

/-- The phase path from the operands and the registers PHASE and SR_RECIP as they stand before the command. -/
def phasePath (len : Nat) (f o phase srRecip : Word) : PhasePath where
  inc := phaseIncrement len f srRecip
  off := phaseOffset len o
  sum := fadd (f32 phase) (phaseOffset len o)
  next := fadd (f32 phase) (phaseIncrement len f srRecip)

/-- The finiteness check of the phase path (spec/40_play.md R83). -/
def PhasePath.isFinite (p : PhasePath) : Bool :=
  p.inc.isFinite && p.off.isFinite && p.sum.isFinite && p.next.isFinite

/-- `pos = wrap(s, L)`, the read position (spec/40_play.md R82). -/
def PhasePath.position (p : PhasePath) (len : Nat) : Val := wrap p.sum.units len

/-- `wrap(n, L)`, the phase after the command (spec/40_play.md R87). -/
def PhasePath.advanced (p : PhasePath) (len : Nat) : Val := wrap p.next.units len

/-- `(i + k) mod L`, the floored integer modulo (spec/00_scope.md R9, R17). -/
def tableIndex (len i : Nat) (k : Int) : Nat := (((i : Int) + k) % (len : Int)).toNat

/-- `T(j) = f32(MemRead(TBASE + j, 4))`, an entry of the table at `tbase`; the address is an unbounded sum
(spec/20_memory.md R43). -/
def State.tableEntry (s : State) (tbase j : Nat) : Val := f32 (s.memRead (tbase + j))

end Sys2Proof.Machine
end

