-- ==== Sys2Proof/Machine/Control.lean ====
section
/-! DEFINITION. The lifecycle, setter and register-access commands (spec/41_control.md), and what an illegal
packet does (spec/30_encoding.md R69). -/

namespace Sys2Proof.Machine

/-- INIT: construct the engine from a sample rate, in every STATE (spec/41_control.md R110). -/
def execInit (sr _w2 _w3 : Word) (s : State) : Result :=
  if validSr sr then
    .next ((((s.setSrRecip (reciprocal sr).bits).setPhase 0x00000000#32).setLifecycle .ready).respond 0x00000000#32)
  else
    .next ((((s.setSrRecip 0x00000000#32).setPhase 0x00000000#32).setLifecycle .uninit).fail .sr)

/-- SETSR: set the sample rate of a constructed engine (spec/41_control.md R112). -/
def execSetsr (sr w2 w3 : Word) (s : State) : Result :=
  match s.lifecycle with
  | .released => raiseFault (encode (.setsr sr w2 w3)) s
  | .uninit => .next (s.fail .state)
  | .ready =>
    if validSr sr then .next ((s.setSrRecip (reciprocal sr).bits).respond 0x00000000#32)
    else .next (s.fail .sr)

/-- RD.STATUS: read STATUS, in every STATE (spec/41_control.md R113). -/
def execRdStatus (_w1 _w2 _w3 : Word) (s : State) : Result := .next (s.respond s.statusWord)

/-- The answer of a register read that is not defined in RELEASED (spec/41_control.md R114, R115). -/
def readRegister (i : Instr) (data : Word) (s : State) : Result :=
  match s.lifecycle with
  | .released => raiseFault (encode i) s
  | .uninit => .next (s.respond data)
  | .ready => .next (s.respond data)

/-- RD.PHASE: read PHASE (spec/41_control.md R114). -/
def execRdPhase (w1 w2 w3 : Word) (s : State) : Result := readRegister (.rdPhase w1 w2 w3) s.phase s

/-- RD.SRRECIP: read SR_RECIP (spec/41_control.md R115). -/
def execRdSrrecip (w1 w2 w3 : Word) (s : State) : Result := readRegister (.rdSrrecip w1 w2 w3) s.srRecip s

/-- CLRST: clear the sticky flags and LAST_CAUSE, in every STATE (spec/41_control.md R116). -/
def execClrst (_w1 _w2 _w3 : Word) (s : State) : Result := .next (s.clearCauses.respond 0x00000000#32)

/-- RELEASE: destroy the engine; PHASE and SR_RECIP keep their values (spec/41_control.md R117). -/
def execRelease (w1 w2 w3 : Word) (s : State) : Result :=
  match s.lifecycle with
  | .released => raiseFault (encode (.release w1 w2 w3)) s
  | .uninit => .next (s.fail .state)
  | .ready => .next ((s.setLifecycle .released).respond 0x00000000#32)

/-- A packet whose command word matches no row of the opcode map: fail(1) in every STATE and no other effect
(spec/30_encoding.md R69). -/
def illegalPacket (s : State) : Result := .next (s.fail .illegal)

end Sys2Proof.Machine
end

