-- ==== Sys2Proof/Machine/Play.lean ====
section
/-! DEFINITION. The PLAY family: the three interpolators, the shared procedure and the three commands
(spec/40_play.md). -/

namespace Sys2Proof.Machine

/-- `INTERP_FLOOR`: the entry at the lower index, as it is stored (spec/40_play.md R84). -/
def interpFloor (entry : Nat → Val) (_len i : Nat) (_fr : Val) : Val := entry i

/-- What LINEAR and CUBIC return at an integer position: a -0.0 comes back as +0.0, whatever the signs of the
vanishing terms are; every other value and position keeps the curve's result (spec/40_play.md R85, R86, R91, R95;
spec/90_conflicts.md C4). DEDUCED, unsafe: notes/assumptions/20.md. -/
def atIntegerPosition (fr y : Val) : Val :=
  if fr = .finite false 0 ∧ y = .finite true 0 then .finite false 0 else y

/-- `INTERP_LINEAR`: `a + (fr * (b - a))`, three operations rounded once each (spec/40_play.md R85). -/
def interpLinear (entry : Nat → Val) (len i : Nat) (fr : Val) : Val :=
  let a := entry i
  let b := entry (tableIndex len i 1)
  atIntegerPosition fr (fadd a (fmul fr (fsub b a)))

/-- The constants of the cubic interpolator, exact binary32 values (spec/40_play.md R86). -/
def cHalf : Val := f32 0x3F000000#32
/-- 1.5 -/
def cOneAndHalf : Val := f32 0x3FC00000#32
/-- 2.0 -/
def cTwo : Val := f32 0x40000000#32
/-- 2.5 -/
def cTwoAndHalf : Val := f32 0x40200000#32

/-- The Catmull-Rom curve through four points in Horner form, every operator rounded once, in the written
order (spec/40_play.md R86). -/
def catmullRom (p0 p1 p2 p3 fr : Val) : Val :=
  let c1 := fmul cHalf (fsub p2 p0)
  let c2 := fsub (fadd (fsub p0 (fmul cTwoAndHalf p1)) (fmul cTwo p2)) (fmul cHalf p3)
  let c3 := fadd (fmul cHalf (fsub p3 p0)) (fmul cOneAndHalf (fsub p1 p2))
  fadd (fmul (fadd (fmul (fadd (fmul c3 fr) c2) fr) c1) fr) p1

/-- `INTERP_CUBIC`: the curve through the entries floor-1 to floor+2, wrapped (spec/40_play.md R86). -/
def interpCubic (entry : Nat → Val) (len i : Nat) (fr : Val) : Val :=
  atIntegerPosition fr (catmullRom (entry (tableIndex len i (-1))) (entry i) (entry (tableIndex len i 1))
    (entry (tableIndex len i 2)) fr)

/-- The interpolated sample of a PLAY at a read position: the only TMEM reads (spec/40_play.md R82, R89, R96). -/
def sampleAt (interp : (Nat → Val) → Nat → Nat → Val → Val) (len tbase : Nat) (pos : Val) (s : State) : Val :=
  interp (s.tableEntry tbase) len (ifloor pos) (frac pos)

/-- The end of a PLAY that has passed checks 1 to 6: the phase advance is committed, then the sample is
answered, or cause 7 where it is not finite (spec/40_play.md R87 to R89). -/
def playCommit (y : Val) (phase' : Word) (s : State) : State :=
  if y.isFinite then (s.setPhase phase').respond y.bits else (s.setPhase phase').fail .sample

/-- PLAY, complete, after its decoding: checks 2 to 7 in their order (spec/40_play.md R89; spec/60_exceptions.md
R132). `i` is the instruction itself, for the record of a model fault. -/
def play (interp : (Nat → Val) → Nat → Nat → Val → Val) (i : Instr) (len : Nat) (f o : Word) (tbase : Nat)
    (s : State) : Result :=
  match s.lifecycle with
  | .released => raiseFault (encode i) s
  | .uninit => .next (s.fail .state)
  | .ready =>
    if len = 0 then .next (s.fail .len0)
    else if s.tmemWords < tbase + len then .next (s.fail .range)
    else
      let path := phasePath len f o s.phase s.srRecip
      if path.isFinite then
        .next (playCommit (sampleAt interp len tbase (path.position len) s) (path.advanced len).bits s)
      else .next (s.fail .numeric)

/-- PLAY.FLOOR (spec/40_play.md R90). -/
def execPlayFloor (len : Nat) (f o : Word) (tbase : Nat) (s : State) : Result :=
  play interpFloor (.playFloor len f o tbase) len f o tbase s

/-- PLAY.LINEAR (spec/40_play.md R91). -/
def execPlayLinear (len : Nat) (f o : Word) (tbase : Nat) (s : State) : Result :=
  play interpLinear (.playLinear len f o tbase) len f o tbase s

/-- PLAY.CUBIC (spec/40_play.md R92). -/
def execPlayCubic (len : Nat) (f o : Word) (tbase : Nat) (s : State) : Result :=
  play interpCubic (.playCubic len f o tbase) len f o tbase s

end Sys2Proof.Machine
end

