-- ==== Sys2Proof/Machine/Dispatch.lean ====
section
/-! DEFINITION. Which meaning each instruction has. -/

namespace Sys2Proof.Machine

def exec (i : Instr) (s : State) : Host.Outcome State Fault Refusal :=
  match i with
  | .init sr w2 w3 => Sys2Proof.Machine.execInit sr w2 w3 s
  | .playFloor len f o tbase => Sys2Proof.Machine.execPlayFloor len f o tbase s
  | .playLinear len f o tbase => Sys2Proof.Machine.execPlayLinear len f o tbase s
  | .playCubic len f o tbase => Sys2Proof.Machine.execPlayCubic len f o tbase s
  | .setsr sr w2 w3 => Sys2Proof.Machine.execSetsr sr w2 w3 s
  | .rdStatus w1 w2 w3 => Sys2Proof.Machine.execRdStatus w1 w2 w3 s
  | .rdPhase w1 w2 w3 => Sys2Proof.Machine.execRdPhase w1 w2 w3 s
  | .rdSrrecip w1 w2 w3 => Sys2Proof.Machine.execRdSrrecip w1 w2 w3 s
  | .clrst w1 w2 w3 => Sys2Proof.Machine.execClrst w1 w2 w3 s
  | .release w1 w2 w3 => Sys2Proof.Machine.execRelease w1 w2 w3 s

end Sys2Proof.Machine
end

