-- ==== Sys2Proof/Machine/HostPort.lean ====
section
/-! DEFINITION. The block's port: what each of the host's interactions does (spec/70_reset_and_hazards.md R156). -/

namespace Sys2Proof.Machine

/-- Perform a packet: decode it; a legal one runs its command, an illegal one fails with cause 1
(spec/30_encoding.md R69, R70, R73; spec/20_memory.md R50). -/
def performPacket (p : Packet) (s : State) : Result :=
  match decode p with
  | .ok i => exec i s
  | .error _ => illegalPacket s

/-- Perform one interaction of the host. A command cut by reset has no effect and no response: reset wins
(spec/70_reset_and_hazards.md R150, R151, R156). -/
def performInput (input : HostInput) (s : State) : Result :=
  match input with
  | .command p => performPacket p s
  | .tableWrite a w => hostTableWrite a w s
  | .reset _ => .next s.resetRegisters

/-- One step of a state without a recorded fault: the host's next interaction, or, where none is left, an idle
step, in which the block holds its registers (spec/60_exceptions.md R141; notes/assumptions/5.md). -/
def stepPort (s : State) : Result :=
  match s.inputs with
  | [] => .next s.noResponse
  | input :: rest => performInput input (s.setInputs rest)

end Sys2Proof.Machine
end

