-- ==== Sys2Proof/Machine/Step.lean ====
section
/-! DEFINITION. One step of the machine, and a state whose next step runs a given packet. -/

namespace Sys2Proof.Machine

/-- One step. A recorded fault is never cleared and no state after it is reached, whatever the host does, reset
included (spec/10_state.md R29; spec/60_exceptions.md R136). -/
def step (s : State) : Host.Outcome State Fault Refusal :=
  match s.faulted with
  | some _ => .fault (.useAfterRelease s)
  | none => stepPort s

/-- The state `s` with the packet of the bits `w` issued by the host as its very next interaction
(notes/assumptions/5.md and 18.md). -/
def State.withFetchWord (s : State) (nbits w : Nat) : State :=
  { s with inputs := .command (packetOfTableWord nbits w) :: s.inputs }

end Sys2Proof.Machine
end

