-- ==== Sys2Proof/Machine/Assembler.lean ====
section
/-! DEFINITION. The assembler of spec/30_encoding.md R74 and R75, on a line given as its list of characters.
What R74 leaves open about the text (white space, empty lines, digits) is in notes/assumptions/15.md. -/

namespace Sys2Proof.Machine

/-- Why a line is refused. -/
inductive AsmError where
  /-- The mnemonic is none of R74's. -/
  | unknownMnemonic
  /-- The mnemonic has another number of operands. -/
  | operandCount
  /-- The operand is not an unsigned integer in decimal or 0x hexadecimal. -/
  | badInteger
  /-- The integer is too large for its field: L < 2^24, tbase and raw words < 2^32. -/
  | integerRange
  /-- The operand is neither a decimal literal nor `f32:0x` and eight hexadecimal digits. -/
  | badNumber
  /-- The decimal literal does not denote a binary32 value exactly; it is refused, not rounded. -/
  | notExact
  deriving DecidableEq, Repr

/-- What one line assembles to: a command, or the raw packet of `.illegal`. -/
inductive AsmItem where
  | instr (i : Instr)
  | raw (p : Packet)
  deriving DecidableEq, Repr

/-- The one packet of a line (spec/30_encoding.md R75). -/
def AsmItem.packet : AsmItem → Packet
  | .instr i => encode i
  | .raw p => p

/-- White space inside a line. -/
def isBlank (c : Char) : Bool := c == ' ' || c == '\t'

/-- A list of characters without the white space around it. -/
def trimBlank (cs : List Char) : List Char :=
  ((cs.dropWhile isBlank).reverse.dropWhile isBlank).reverse

/-- A line without its comment. -/
def withoutComment (cs : List Char) : List Char := cs.takeWhile (· != ';')

/-- The pieces of an operand list between its commas. -/
def splitCommas : List Char → List (List Char)
  | [] => [[]]
  | c :: cs =>
    match splitCommas cs with
    | [] => [[c]]
    | piece :: rest => if c = ',' then [] :: piece :: rest else (c :: piece) :: rest

/-- The operands of a command: none where nothing stands after the mnemonic. -/
def operandsOf (cs : List Char) : List (List Char) :=
  if trimBlank cs = [] then [] else (splitCommas cs).map trimBlank

/-- The value of a hexadecimal digit. -/
def hexDigit (c : Char) : Option Nat :=
  let n := c.toNat
  if 48 ≤ n ∧ n ≤ 57 then some (n - 48)
  else if 65 ≤ n ∧ n ≤ 70 then some (n - 55)
  else if 97 ≤ n ∧ n ≤ 102 then some (n - 87)
  else none

/-- The value of a decimal digit. -/
def decDigit (c : Char) : Option Nat :=
  let n := c.toNat
  if 48 ≤ n ∧ n ≤ 57 then some (n - 48) else none

/-- The value of a run of digits after a value `acc` already read; none where a character is no digit. -/
def digitsFrom (base : Nat) (digit : Char → Option Nat) (acc : Nat) : List Char → Option Nat
  | [] => some acc
  | c :: cs =>
    match digit c with
    | none => none
    | some d => digitsFrom base digit (acc * base + d) cs

/-- The value of a run of at least one digit. -/
def digitsValue (base : Nat) (digit : Char → Option Nat) (cs : List Char) : Option Nat :=
  if cs = [] then none else digitsFrom base digit 0 cs

/-- An unsigned integer in decimal or 0x hexadecimal, below `limit` (spec/30_encoding.md R74). -/
def parseInteger (limit : Nat) (cs : List Char) : Except AsmError Nat :=
  let value :=
    match cs with
    | '0' :: 'x' :: ds => digitsValue 16 hexDigit ds
    | ds => digitsValue 10 decDigit ds
  match value with
  | none => .error .badInteger
  | some n => if n < limit then .ok n else .error .integerRange

/-- The pattern of the number `units / den` units of 2^-149 if it is exactly a binary32 value. -/
def exactUnits (neg : Bool) (units den : Nat) : Except AsmError Word :=
  match rnd neg units den with
  | .finite sign mag => if mag * den = units then .ok (Val.finite sign mag).bits else .error .notExact
  | .inf _ => .error .notExact
  | .nan => .error .notExact

/-- The pattern of the number `num / den` if it is exactly a binary32 value (spec/30_encoding.md R74). -/
def exactPattern (neg : Bool) (num den : Nat) : Except AsmError Word := exactUnits neg (num * unitsPerOne) den

/-- A decimal literal without its sign: digits, or digits, a point and digits. -/
def parseDecimal (neg : Bool) (cs : List Char) : Except AsmError Word :=
  let whole := cs.takeWhile (· != '.')
  match digitsValue 10 decDigit whole, cs.dropWhile (· != '.') with
  | none, _ => .error .badNumber
  | some n, [] => exactPattern neg n 1
  | some n, _ :: places =>
    match digitsValue 10 decDigit places with
    | none => .error .badNumber
    | some k => exactPattern neg (n * 10 ^ places.length + k) (10 ^ places.length)

/-- A binary32 operand: raw bits as `f32:0xHHHHHHHH`, or a decimal literal (spec/30_encoding.md R74). -/
def parseNumber (cs : List Char) : Except AsmError Word :=
  match cs with
  | 'f' :: '3' :: '2' :: ':' :: '0' :: 'x' :: ds =>
    if ds.length = 8 then
      match digitsValue 16 hexDigit ds with
      | some n => .ok (BitVec.ofNat 32 n)
      | none => .error .badNumber
    else .error .badNumber
  | '-' :: ds => parseDecimal true ds
  | ds => parseDecimal false ds

/-- A command with one binary32 operand; its ignored words are zero (spec/30_encoding.md R74). -/
def asmRate (build : Word → Word → Word → Instr) (ops : List (List Char)) : Except AsmError AsmItem :=
  match ops with
  | [sr] =>
    match parseNumber sr with
    | .ok w => .ok (.instr (build w 0x00000000#32 0x00000000#32))
    | .error e => .error e
  | _ => .error .operandCount

/-- A command without operands; its ignored words are zero (spec/30_encoding.md R74). -/
def asmPlain (build : Word → Word → Word → Instr) (ops : List (List Char)) : Except AsmError AsmItem :=
  match ops with
  | [] => .ok (.instr (build 0x00000000#32 0x00000000#32 0x00000000#32))
  | _ => .error .operandCount

/-- A PLAY: length, frequency, offset, table base (spec/30_encoding.md R74). -/
def asmPlay (build : Nat → Word → Word → Nat → Instr) (ops : List (List Char)) : Except AsmError AsmItem :=
  match ops with
  | [len, f, o, tbase] =>
    match parseInteger (2 ^ 24) len, parseNumber f, parseNumber o, parseInteger (2 ^ 32) tbase with
    | .ok l, .ok wf, .ok wo, .ok b => .ok (.instr (build l wf wo b))
    | .error e, _, _, _ => .error e
    | .ok _, .error e, _, _ => .error e
    | .ok _, .ok _, .error e, _ => .error e
    | .ok _, .ok _, .ok _, .error e => .error e
  | _ => .error .operandCount

/-- `.illegal`: a raw packet of four words (spec/30_encoding.md R74). -/
def asmRaw (ops : List (List Char)) : Except AsmError AsmItem :=
  match ops with
  | [c, x, y, z] =>
    match parseInteger (2 ^ 32) c, parseInteger (2 ^ 32) x, parseInteger (2 ^ 32) y, parseInteger (2 ^ 32) z with
    | .ok c, .ok x, .ok y, .ok z =>
      .ok (.raw ⟨BitVec.ofNat 32 c, BitVec.ofNat 32 x, BitVec.ofNat 32 y, BitVec.ofNat 32 z⟩)
    | .error e, _, _, _ => .error e
    | .ok _, .error e, _, _ => .error e
    | .ok _, .ok _, .error e, _ => .error e
    | .ok _, .ok _, .ok _, .error e => .error e
  | _ => .error .operandCount

/-- The command of a mnemonic and its operands (spec/30_encoding.md R74). -/
def assembleCommand (mnemonic : List Char) (ops : List (List Char)) : Except AsmError AsmItem :=
  if mnemonic = "init".toList then asmRate .init ops
  else if mnemonic = "setsr".toList then asmRate .setsr ops
  else if mnemonic = "play.floor".toList then asmPlay .playFloor ops
  else if mnemonic = "play.linear".toList then asmPlay .playLinear ops
  else if mnemonic = "play.cubic".toList then asmPlay .playCubic ops
  else if mnemonic = "rd.status".toList then asmPlain .rdStatus ops
  else if mnemonic = "rd.phase".toList then asmPlain .rdPhase ops
  else if mnemonic = "rd.srrecip".toList then asmPlain .rdSrrecip ops
  else if mnemonic = "clrst".toList then asmPlain .clrst ops
  else if mnemonic = "release".toList then asmPlain .release ops
  else if mnemonic = ".illegal".toList then asmRaw ops
  else .error .unknownMnemonic

/-- One line: a comment or white space alone assembles to nothing, a command to one packet
(spec/30_encoding.md R74, R75). -/
def assembleLine (line : List Char) : Except AsmError (Option AsmItem) :=
  let text := trimBlank (withoutComment line)
  if text = [] then .ok none
  else
    match assembleCommand (text.takeWhile (fun c => !isBlank c)) (operandsOf (text.dropWhile (fun c => !isBlank c))) with
    | .ok item => .ok (some item)
    | .error e => .error e

end Sys2Proof.Machine
end

