-- ==== Sys2Proof/Safety.lean ====
section
/-! DEFINITION. What counts as a legal state and as a safe run, in the terms statements use. -/

namespace Sys2Proof.Machine

/-- What PHASE and SR_RECIP can hold: finite patterns of positive sign, SR_RECIP positive when READY, both +0.0
when UNINIT (spec/10_state.md R20, R21, R30; spec/41_control.md R114). -/
def State.registersLegal (s : State) : Prop :=
  s.phase.toNat < 0x7F800000 ∧ s.srRecip.toNat < 0x7F800000 ∧
  (s.lifecycle = .ready → 0 < s.srRecip.toNat) ∧
  (s.lifecycle = .uninit → s.phase = 0x00000000#32 ∧ s.srRecip = 0x00000000#32)

/-- What the sticky flags and LAST_CAUSE can hold together: LAST_CAUSE is 0 with no flag set, or a cause code
whose flag is set; codes 8 to 15 are never held (spec/10_state.md R23 to R25; spec/60_exceptions.md R130). -/
def State.statusConsistent (s : State) : Prop :=
  s.lastCause.toNat ≤ 7 ∧ (s.lastCause = 0#4 → s.flags = 0#7) ∧
  (s.lastCause ≠ 0#4 → s.flags.getLsbD (s.lastCause.toNat - 1) = true)

/-- TMEM is in its canonical form and lists no byte outside its words (spec/20_memory.md R40, R45). -/
def State.memLegal (s : State) : Prop :=
  Memory.wf s.tmemInit s.mem ∧ ∀ c ∈ s.mem, c.1 < 4 * s.tmemWords

/-- The commands that are defined in RELEASED: INIT, RD.STATUS, CLRST and illegal words
(spec/60_exceptions.md R136). -/
def definedInReleased (p : Packet) : Bool :=
  match decode p with
  | .error _ => true
  | .ok i =>
    match i with
    | .init _ _ _ => true
    | .playFloor _ _ _ _ => false
    | .playLinear _ _ _ _ => false
    | .playCubic _ _ _ _ => false
    | .setsr _ _ _ => false
    | .rdStatus _ _ _ => true
    | .rdPhase _ _ _ => false
    | .rdSrrecip _ _ _ => false
    | .clrst _ _ _ => true
    | .release _ _ _ => false

/-- STATE after one interaction of the host: INIT, RELEASE and reset write it, nothing else does
(spec/10_state.md R22; spec/41_control.md R110, R117; spec/70_reset_and_hazards.md R150). -/
def Lifecycle.after (l : Lifecycle) (input : HostInput) : Lifecycle :=
  match input with
  | .tableWrite _ _ => l
  | .reset _ => .uninit
  | .command p =>
    match decode p with
    | .error _ => l
    | .ok i =>
      match i with
      | .init sr _ _ => if validSr sr then .ready else .uninit
      | .release _ _ _ => if l = .ready then .released else l
      | .playFloor _ _ _ _ => l
      | .playLinear _ _ _ _ => l
      | .playCubic _ _ _ _ => l
      | .setsr _ _ _ => l
      | .rdStatus _ _ _ => l
      | .rdPhase _ _ _ => l
      | .rdSrrecip _ _ _ => l
      | .clrst _ _ _ => l

/-- The host's duty for one interaction: no use of the engine after RELEASE, and table writes only at addresses
TMEM has (spec/70_reset_and_hazards.md R156; spec/20_memory.md R40). -/
def HostInput.dutiful (words : Nat) (l : Lifecycle) (input : HostInput) : Bool :=
  match input with
  | .command p => decide (l ≠ .released) || definedInReleased p
  | .tableWrite a _ => decide (a < words)
  | .reset _ => true

/-- The host's duty along a whole list of interactions, from a given STATE. -/
def dutifulScript (words : Nat) : Lifecycle → List HostInput → Bool
  | _, [] => true
  | l, input :: rest => input.dutiful words l && dutifulScript words (l.after input) rest

/-- The conditions under which a PLAY with these operands passes checks 2 to 6, with the four values of its phase
arithmetic spelled out as spec/40_play.md R81, R82 and R87 give them (R89). -/
structure PlayPasses (len : Nat) (f o : Word) (tbase : Nat) (s : State) (inc off sum next : Val) : Prop where
  isReady : s.lifecycle = .ready
  lenPos : 0 < len
  lenFits : len < 2 ^ 24
  tableFits : tbase + len ≤ s.tmemWords
  incIs : inc = fmul (fmul (f32 f) (ofInt len)) (f32 s.srRecip)
  offIs : off = fmul (f32 o) (ofInt len)
  sumIs : sum = fadd (f32 s.phase) off
  nextIs : next = fadd (f32 s.phase) inc
  incFinite : inc.isFinite = true
  offFinite : off.isFinite = true
  sumFinite : sum.isFinite = true
  nextFinite : next.isFinite = true

/-- The word address of the table entry `k` places after the read position of a PLAY, wrapped in the table
(spec/40_play.md R82, R96; spec/20_memory.md R43). -/
def playAddress (len : Nat) (o : Word) (tbase : Nat) (s : State) (k : Int) : Nat :=
  tbase + (((ifloor (wrap (fadd (f32 s.phase) (fmul (f32 o) (ofInt len))).units len) : Int) + k) % (len : Int)).toNat

/-- The sample a commit answers: the pattern of a finite one with cause 0, or DATA 0 with cause 7 recorded; the
phase is written either way and nothing else changes (spec/40_play.md R87 to R89). -/
def State.afterSample (s : State) (phase' : Word) (y : Val) (data : Word) : State :=
  if y.isFinite then { s with phase := phase', response := some ⟨data, 0#4⟩ }
  else { s with
    phase := phase', flags := s.flags ||| 64#7, lastCause := 7#4, response := some ⟨0x00000000#32, 7#4⟩ }

/-- `v` is the exact value `num / den` units of 2^-149 rounded once (spec/00_scope.md R12): finite exactly when the
magnitude is below 2^128 - 2^103, otherwise the infinity of its sign; a finite one is a binary32 value that no other
is nearer than, with an even pattern where another is as near, and has the sign of the exact value unless that is
zero. -/
def Val.roundsOnce (v : Val) (num : Int) (den : Nat) : Prop :=
  (v.isFinite = true ↔ |num| < den * ((2 ^ 25 - 1) * 2 ^ 252 : Nat)) ∧
  (v.isFinite = false → v = .inf (decide (num < 0))) ∧
  (v.isFinite = true → f32 v.bits = v ∧ (num ≠ 0 → v.bits.getLsbD 31 = decide (num < 0)) ∧
    ∀ c : Word, (f32 c).isFinite = true →
      |v.units * den - num| ≤ |(f32 c).units * den - num| ∧
      (|v.units * den - num| = |(f32 c).units * den - num| → (f32 c).units ≠ v.units → v.bits.getLsbD 0 = false))

/-- A run of `k` steps from `s` is safe when it meets no fault and no refusal: it ends in a next state, with no
fault recorded (spec/10_state.md R29). -/
def safeRun (k : Nat) (s : State) : Prop :=
  ∃ t, Host.Core.run Sys2Proof.core k s = .next t ∧ t.faulted = none

end Sys2Proof.Machine
end

