-- ==== Sys2Proof/WellFormed.lean ====
section
/-! DEFINITION. Which instructions the encoding of spec/30_encoding.md can express. -/

namespace Sys2Proof

/-- The field limits of a PLAY: the length has 24 bits and the table base 32
(spec/30_encoding.md R64, R67, R74). -/
def playFieldsFit (len tbase : Nat) : Bool :=
  decide (len < 2 ^ 24) && decide (tbase < 2 ^ 32)

/-- Every operand is one that a packet can carry. -/
def Instr.wellFormed : Instr → Bool
  | .init _ _ _ => true
  | .playFloor len _ _ tbase => playFieldsFit len tbase
  | .playLinear len _ _ tbase => playFieldsFit len tbase
  | .playCubic len _ _ tbase => playFieldsFit len tbase
  | .setsr _ _ _ => true
  | .rdStatus _ _ _ => true
  | .rdPhase _ _ _ => true
  | .rdSrrecip _ _ _ => true
  | .clrst _ _ _ => true
  | .release _ _ _ => true

end Sys2Proof
end

