-- ==== Sys2Proof/Certificates/Slice0/Obligations.lean ====
section
/-! DEFINITION. The statements about the model, each from the numbered rules of spec/. -/

open Sys2Proof Sys2Proof.Machine

/-! ## Encoding -/

/-- Decoding the packet of a well-formed instruction gives the instruction back (R61, R66, R68). -/
def Obligations.EncodedInstructionDecodesBack : Prop :=
  ∀ i : Instr, i.wellFormed = true → decode (encode i) = .ok i

/-- A packet that decodes is exactly the packet of its instruction, which is well formed: the decoder drops no bit of
a legal packet (R61, R66, R67). That it keeps the operand words a command ignores too is the model's choice
(notes/assumptions/16.md): R60 and R66 say only that they have no effect. -/
def Obligations.LegalPacketIsItsInstructionsPacket : Prop :=
  ∀ (p : Packet) (i : Instr), decode p = .ok i → i.wellFormed = true ∧ encode i = p

/-- R73: decoding answers an instruction of the one row of the opcode map that matches the command word, with the
row's LEN field for a PLAY, and none exactly when no row matches; and it depends on the command word alone. -/
def Obligations.DecodeReturnsTheUniqueMatchingRow : Prop :=
  (∀ p : Packet, (∃ i, decode p = .ok i) ↔ ∃ r ∈ opcodeMap, r.hit p.cmd = true) ∧
  (∀ cmd : Word, ∀ r ∈ opcodeMap, ∀ r' ∈ opcodeMap, r.hit cmd = true → r'.hit cmd = true → r = r') ∧
  (∀ (p : Packet) (i : Instr), decode p = .ok i → ∀ r ∈ opcodeMap, r.hit p.cmd = true → i.mnemonic = r.mnemonic) ∧
  (∀ (p : Packet) (len tbase : Nat) (f o : Word),
    (decode p = .ok (.playFloor len f o tbase) ∨ decode p = .ok (.playLinear len f o tbase) ∨
      decode p = .ok (.playCubic len f o tbase)) → len = p.cmd.toNat / 256) ∧
  (∀ (p q : Packet) (i : Instr), p.cmd = q.cmd → decode p = .ok i →
    ∃ j, decode q = .ok j ∧ j.mnemonic = i.mnemonic)

/-- R64: CMD[31:8] is the unsigned length of a PLAY, at most 16777215, neither scaled nor extended; length 0
decodes and, in READY, fails with cause 4. -/
def Obligations.LengthFieldIsTheTableLength : Prop :=
  (∀ p : Packet, p.cmd.toNat / 256 ≤ 16777215 ∧
    (p.cmd.toNat % 256 = 2 →
      decode p = .ok (.playFloor (p.cmd.toNat / 256) p.w1 p.w2 p.w3.toNat)) ∧
    (p.cmd.toNat % 256 = 3 →
      decode p = .ok (.playLinear (p.cmd.toNat / 256) p.w1 p.w2 p.w3.toNat)) ∧
    (p.cmd.toNat % 256 = 4 →
      decode p = .ok (.playCubic (p.cmd.toNat / 256) p.w1 p.w2 p.w3.toNat))) ∧
  (∀ (f o : Word) (tbase : Nat) (s : State), s.lifecycle = .ready →
    ∀ i ∈ [Instr.playFloor 0 f o tbase, .playLinear 0 f o tbase, .playCubic 0 f o tbase],
    exec i s = .next { s with
      flags := s.flags ||| 8#7, lastCause := 4#4, response := some ⟨0x00000000#32, 4#4⟩ })

/-- R69: the illegal command words are exactly the listed ones, and an illegal packet fails with cause 1 in every
STATE, changing nothing but STATUS[4] and STATUS[19:16]. -/
def Obligations.IllegalWordsFailWithCauseOneAndNoOtherEffect : Prop :=
  (∀ p : Packet, (∃ e, decode p = .error e) ↔ ∀ r ∈ opcodeMap, r.hit p.cmd = false) ∧
  (∀ p : Packet, (∃ e, decode p = .error e) ↔
    (p.cmd.toNat % 16 = 0 ∨ 9 ≤ p.cmd.toNat % 16 ∨ p.cmd.toNat / 16 % 16 ≠ 0 ∨
     ((p.cmd.toNat % 16 = 1 ∨ p.cmd.toNat % 16 = 5 ∨ p.cmd.toNat % 16 = 7 ∨ p.cmd.toNat % 16 = 8) ∧
        p.cmd.toNat / 256 ≠ 0) ∨
     (p.cmd.toNat % 16 = 6 ∧ p.cmd.toNat / 256 % 4 = 3) ∨
     (p.cmd.toNat % 16 = 6 ∧ p.cmd.toNat / 1024 ≠ 0))) ∧
  (∀ (p : Packet) (rest : List HostInput) (s : State), s.faulted = none → s.inputs = .command p :: rest →
    (∃ e, decode p = .error e) →
    step s = .next { s with
      inputs := rest, flags := s.flags ||| 1#7, lastCause := 1#4, response := some ⟨0x00000000#32, 1#4⟩ })

/-- Words written out from the opcode map decode to the commands they stand for (R61, R65, R68). How the bits of a
packet are numbered as one number is the model's choice (notes/assumptions/18.md), and the 128-bit word rests on it. -/
def Obligations.WrittenOutWordsDecode : Prop :=
  decodeTableWord 32 0x00000001 = some (.init 0 0 0) ∧
  decodeTableWord 32 0x00000803 = some (.playLinear 8 0 0 0) ∧
  decodeTableWord 128 0x000000083E80000040000000_00000404 = some (.playCubic 4 0x40000000#32 0x3E800000#32 8) ∧
  decodeTableWord 32 0x00000106 = some (.rdPhase 0 0 0) ∧
  decodeTableWord 32 0x00000008 = some (.release 0 0 0) ∧
  decodeTableWord 32 0x00000306 = none

/-- The operand words a command ignores have no effect on what it does: in every STATE for INIT, RD.STATUS and CLRST,
and for the others outside RELEASED, where the model fault records the packet (R60, R66). -/
def Obligations.IgnoredWordsHaveNoEffect : Prop :=
  ∀ (w1 w2 w3 x1 x2 x3 : Word) (s : State),
    exec (.init w1 w2 w3) s = exec (.init w1 x2 x3) s ∧
    exec (.rdStatus w1 w2 w3) s = exec (.rdStatus x1 x2 x3) s ∧
    exec (.clrst w1 w2 w3) s = exec (.clrst x1 x2 x3) s ∧
    (s.lifecycle ≠ .released →
      exec (.setsr w1 w2 w3) s = exec (.setsr w1 x2 x3) s ∧
      exec (.rdPhase w1 w2 w3) s = exec (.rdPhase x1 x2 x3) s ∧
      exec (.rdSrrecip w1 w2 w3) s = exec (.rdSrrecip x1 x2 x3) s ∧
      exec (.release w1 w2 w3) s = exec (.release x1 x2 x3) s)

/-! ## The step and the port -/

/-- A step runs the decoded instruction: where the host's next interaction is a legal packet and no fault is
recorded, the step is the instruction's meaning, on the state without that interaction (R50, R73). -/
def Obligations.StepRunsTheDecodedInstruction : Prop :=
  ∀ (p : Packet) (rest : List HostInput) (i : Instr) (s : State),
    s.faulted = none → s.inputs = .command p :: rest → decode p = .ok i →
    i.wellFormed = true ∧ step s = exec i { s with inputs := rest }

/-- The state the host's fetch word is placed in runs that word next, where it is legal. The block fetches nothing
(R27): that placing a word issues its packet as the next interaction, and how the word's bits are numbered, is the
model's choice (notes/assumptions/5.md and 18.md). -/
def Obligations.PlacedWordIsTheNextInstruction : Prop :=
  ∀ (nbits w : Nat) (i : Instr) (s : State), s.faulted = none → decodeTableWord nbits w = some i →
    step (s.withFetchWord nbits w) = exec i s

/-- Between commands the block holds its registers and TMEM (R141); the model's choice (notes/assumptions/5.md
and 6.md) is that an idle step is a next state with no response. -/
def Obligations.IdleBlockHoldsItsState : Prop :=
  ∀ s : State, s.faulted = none → s.inputs = [] → step s = .next { s with response := none }

/-- R70: every packet that does not raise the model fault produces exactly one response; on every failure DATA is
0, and so it is on the success of INIT, SETSR, CLRST and RELEASE. -/
def Obligations.EveryPacketIsAnsweredOnce : Prop :=
  ∀ (p : Packet) (rest : List HostInput) (s t : State),
    s.inputs = .command p :: rest → step s = .next t →
    t.inputs = rest ∧ ∃ r, t.response = some r ∧ (r.cause ≠ 0#4 → r.data = 0x00000000#32) ∧
      (∀ i, decode p = .ok i → i.mnemonic ∈ ["INIT", "SETSR", "CLRST", "RELEASE"] → r.data = 0x00000000#32)

/-- A host table write inside TMEM is a step that changes that word alone: it reads back, every byte outside it
reads as before, no register changes and there is no response (R51, R156). -/
def Obligations.HostTableWriteStoresOneWord : Prop :=
  ∀ (a : Nat) (w : Word) (rest : List HostInput) (s : State), s.faulted = none →
    s.inputs = .tableWrite a w :: rest → Memory.wf s.tmemInit s.mem → a < s.tmemWords →
    ∃ t, step s = .next t ∧ t = { s with mem := t.mem, inputs := rest, response := none } ∧ t.memRead a = w ∧
      ∀ b, ¬ (4 * a ≤ b ∧ b < 4 * a + 4) → t.memByte b = s.memByte b

/-- R45: byte 4a + k of the host's image is bits 8k+7 to 8k of word a. -/
def Obligations.ByteImageIsLittleEndian : Prop :=
  ∀ (s : State) (a k : Nat), k < 4 →
    (s.memRead a).toNat / 2 ^ (8 * k) % 256 = (s.memByte (4 * a + k)).toNat

/-- R152, R151, R150: the reset input sets every register to its reset value, performs nothing of a command in
progress, answers nothing and leaves TMEM alone. -/
def Obligations.ResetWinsOverTheCommandInProgress : Prop :=
  ∀ (cut : Option Packet) (rest : List HostInput) (s : State), s.faulted = none → s.inputs = .reset cut :: rest →
    ∃ t, step s = .next t ∧ t.phase = 0x00000000#32 ∧ t.srRecip = 0x00000000#32 ∧ t.lifecycle = .uninit ∧
      t.statusWord = 0x00000000#32 ∧ t.response = none ∧ t.inputs = rest ∧ t.faulted = none ∧
      t.tmemTop = s.tmemTop ∧ ∀ a, t.memByte a = s.memByte a

/-- The reset values of the registers (R20 to R25, R150). -/
def Obligations.ResetValuesOfTheRegisters : Prop :=
  State.reset.phase = 0x00000000#32 ∧ State.reset.srRecip = 0x00000000#32 ∧ State.reset.lifecycle = .uninit ∧
    State.reset.flags = 0#7 ∧ State.reset.lastCause = 0#4 ∧ State.reset.statusWord = 0x00000000#32

/-! ## Lifecycle, setter and register-access commands -/

/-- R110, R111: INIT with a rate above 2^-128 (a pattern strictly between 0x00200000 and 0x7F800000) stores the
binary32 value nearest to its reciprocal, zeroes PHASE and makes the block READY, in every STATE; any other
pattern leaves no engine and fails with cause 3. Nothing else changes. -/
def Obligations.InitStoresTheNearestReciprocalOrLeavesNoEngine : Prop :=
  ∀ (sr w2 w3 : Word) (s : State),
    (0x00200000 < sr.toNat ∧ sr.toNat < 0x7F800000 →
      ∃ w : Word, exec (.init sr w2 w3) s = .next { s with
          srRecip := w, phase := 0x00000000#32, lifecycle := .ready, response := some ⟨0x00000000#32, 0#4⟩ } ∧
        0 < w.toNat ∧ w.toNat < 0x7F800000 ∧
        ∀ x : Word, (f32 x).isFinite = true →
          |(f32 w).units * (f32 sr).units - unitsPerOne * unitsPerOne| ≤
            |(f32 x).units * (f32 sr).units - unitsPerOne * unitsPerOne|) ∧
    (sr.toNat ≤ 0x00200000 ∨ 0x7F800000 ≤ sr.toNat →
      exec (.init sr w2 w3) s = .next { s with
        srRecip := 0x00000000#32, phase := 0x00000000#32, lifecycle := .uninit, flags := s.flags ||| 4#7,
        lastCause := 3#4, response := some ⟨0x00000000#32, 3#4⟩ })

/-- R111: a sample rate is valid exactly when it is finite and above 2^-128, and then its reciprocal is positive
and finite. -/
def Obligations.ValidRatesAreThoseAboveTwoToTheMinus128 : Prop :=
  ∀ sr : Word,
    (validSr sr = true ↔ (f32 sr).isFinite = true ∧ (f32 sr).units > 2 ^ 21) ∧
    (validSr sr = true ↔ (f32 sr).isFinite = true ∧ (f32 sr).units > 0 ∧ (reciprocal sr).isFinite = true) ∧
    (validSr sr = true → 0 < (reciprocal sr).units)

/-- R112: SETSR in READY stores the nearest reciprocal of a valid rate and keeps PHASE; an invalid rate fails with
cause 3, in UNINIT it fails with cause 2; each changes nothing else. -/
def Obligations.SetsrChangesTheReciprocalAlone : Prop :=
  ∀ (sr w2 w3 : Word) (s : State),
    (s.lifecycle = .ready → 0x00200000 < sr.toNat → sr.toNat < 0x7F800000 →
      ∃ w : Word, exec (.setsr sr w2 w3) s = .next { s with
          srRecip := w, response := some ⟨0x00000000#32, 0#4⟩ } ∧
        0 < w.toNat ∧ w.toNat < 0x7F800000 ∧
        ∀ x : Word, (f32 x).isFinite = true →
          |(f32 w).units * (f32 sr).units - unitsPerOne * unitsPerOne| ≤
            |(f32 x).units * (f32 sr).units - unitsPerOne * unitsPerOne|) ∧
    (s.lifecycle = .ready → sr.toNat ≤ 0x00200000 ∨ 0x7F800000 ≤ sr.toNat →
      exec (.setsr sr w2 w3) s = .next { s with
        flags := s.flags ||| 4#7, lastCause := 3#4, response := some ⟨0x00000000#32, 3#4⟩ }) ∧
    (s.lifecycle = .uninit →
      exec (.setsr sr w2 w3) s = .next { s with
        flags := s.flags ||| 2#7, lastCause := 2#4, response := some ⟨0x00000000#32, 2#4⟩ })

/-- R23: the STATUS word is STATE in bits 1:0, the flags in bits 10:4 and LAST_CAUSE in bits 19:16, and every other
bit is 0; STATE never reads 3 (R22). -/
def Obligations.StatusWordLayout : Prop :=
  ∀ s : State, s.statusWord.toNat = s.lifecycle.code.toNat + 16 * s.flags.toNat + 65536 * s.lastCause.toNat ∧
    s.lifecycle.code.toNat < 3

/-- R113: RD.STATUS answers the STATUS word as it stood, in every STATE, and changes no register. -/
def Obligations.RdStatusAnswersTheStatusWord : Prop :=
  ∀ (w1 w2 w3 : Word) (s : State), ∃ d : Word,
    exec (.rdStatus w1 w2 w3) s = .next { s with response := some ⟨d, 0#4⟩ } ∧
    d.toNat = s.lifecycle.code.toNat + 16 * s.flags.toNat + 65536 * s.lastCause.toNat

/-- R114, R115: outside RELEASED, RD.PHASE answers PHASE and RD.SRRECIP answers SR_RECIP; neither changes a
register. -/
def Obligations.RegisterReadsAnswerTheRegisters : Prop :=
  ∀ (w1 w2 w3 : Word) (s : State), s.lifecycle ≠ .released →
    exec (.rdPhase w1 w2 w3) s = .next { s with response := some ⟨s.phase, 0#4⟩ } ∧
    exec (.rdSrrecip w1 w2 w3) s = .next { s with response := some ⟨s.srRecip, 0#4⟩ }

/-- R116: CLRST clears the flags and LAST_CAUSE in every STATE and changes nothing else; STATUS is then STATE
alone. -/
def Obligations.ClrstLeavesStateAloneInStatus : Prop :=
  ∀ (w1 w2 w3 : Word) (s : State), ∃ t : State,
    exec (.clrst w1 w2 w3) s = .next t ∧
    t = { s with flags := 0#7, lastCause := 0#4, response := some ⟨0x00000000#32, 0#4⟩ } ∧
    t.statusWord.toNat = s.statusWord.toNat % 4

/-- R117: RELEASE in READY makes STATE RELEASED and keeps everything else, PHASE and SR_RECIP too; in UNINIT it
fails with cause 2. -/
def Obligations.ReleaseDestroysTheEngine : Prop :=
  ∀ (w1 w2 w3 : Word) (s : State),
    (s.lifecycle = .ready → exec (.release w1 w2 w3) s = .next { s with
      lifecycle := .released, response := some ⟨0x00000000#32, 0#4⟩ }) ∧
    (s.lifecycle = .uninit → exec (.release w1 w2 w3) s = .next { s with
      flags := s.flags ||| 2#7, lastCause := 2#4, response := some ⟨0x00000000#32, 2#4⟩ })

/-! ## PLAY -/

/-- R84, R89, R90: a PLAY.FLOOR that passes its checks answers the entry at the lower index of the read position
bit for bit as TMEM stores it, and advances the phase; a stored infinity or NaN gives +0.0 and cause 7, with the
phase advanced all the same. -/
def Obligations.PlayFloorAnswersTheStoredEntry : Prop :=
  ∀ (len tbase : Nat) (f o : Word) (s : State) (inc off sum next : Val),
    PlayPasses len f o tbase s inc off sum next →
    exec (.playFloor len f o tbase) s = .next (s.afterSample (wrap next.units len).bits
      (f32 (s.memRead (tbase + ifloor (wrap sum.units len)))) (s.memRead (tbase + ifloor (wrap sum.units len))))

/-- R85, R89, R91: a PLAY.LINEAR that passes its checks answers `a + (fr * (b - a))` of the entry at the lower index
and the entry after it, wrapped at the end of the table; at an integer position a -0.0 entry with a finite result
comes back as +0.0. That this holds for a falling table too, where the operations alone give -0.0, is the model's
reading of the prose (notes/assumptions/20.md). -/
def Obligations.PlayLinearAnswersTheLineThroughTwoEntries : Prop :=
  ∀ (len tbase : Nat) (f o : Word) (s : State) (inc off sum next : Val),
    PlayPasses len f o tbase s inc off sum next →
    ∀ (i : Nat) (fr a b y : Val), i = ifloor (wrap sum.units len) → fr = frac (wrap sum.units len) →
      a = f32 (s.memRead (tbase + i)) → b = f32 (s.memRead (tbase + (i + 1) % len)) →
      y = fadd a (fmul fr (fsub b a)) →
      (¬ (fr = .finite false 0 ∧ a = .finite true 0 ∧ y.isFinite = true) →
        exec (.playLinear len f o tbase) s = .next (s.afterSample (wrap next.units len).bits y y.bits)) ∧
      (fr = .finite false 0 → a = .finite true 0 → y.isFinite = true →
        exec (.playLinear len f o tbase) s
          = .next (s.afterSample (wrap next.units len).bits (.finite false 0) 0x00000000#32))

/-- R86, R89, R92: a PLAY.CUBIC that passes its checks answers the Catmull-Rom value of the entries floor-1 to
floor+2, wrapped, in the Horner form and operator order of R86; at an integer position a -0.0 entry with a finite
result comes back as +0.0. That this holds for a falling curve too, where the operations alone give -0.0, is the
model's reading of the prose (notes/assumptions/20.md). -/
def Obligations.PlayCubicAnswersTheCatmullRomValue : Prop :=
  ∀ (len tbase : Nat) (f o : Word) (s : State) (inc off sum next : Val),
    PlayPasses len f o tbase s inc off sum next →
    ∀ (i : Nat) (fr p0 p1 p2 p3 c1 c2 c3 y : Val),
      i = ifloor (wrap sum.units len) → fr = frac (wrap sum.units len) →
      p0 = f32 (s.memRead (tbase + (i + len - 1) % len)) → p1 = f32 (s.memRead (tbase + i)) →
      p2 = f32 (s.memRead (tbase + (i + 1) % len)) → p3 = f32 (s.memRead (tbase + (i + 2) % len)) →
      c1 = fmul (f32 0x3F000000#32) (fsub p2 p0) →
      c2 = fsub (fadd (fsub p0 (fmul (f32 0x40200000#32) p1)) (fmul (f32 0x40000000#32) p2))
        (fmul (f32 0x3F000000#32) p3) →
      c3 = fadd (fmul (f32 0x3F000000#32) (fsub p3 p0)) (fmul (f32 0x3FC00000#32) (fsub p1 p2)) →
      y = fadd (fmul (fadd (fmul (fadd (fmul c3 fr) c2) fr) c1) fr) p1 →
      (¬ (fr = .finite false 0 ∧ p1 = .finite true 0 ∧ y.isFinite = true) →
        exec (.playCubic len f o tbase) s = .next (s.afterSample (wrap next.units len).bits y y.bits)) ∧
      (fr = .finite false 0 → p1 = .finite true 0 → y.isFinite = true →
        exec (.playCubic len f o tbase) s
          = .next (s.afterSample (wrap next.units len).bits (.finite false 0) 0x00000000#32))

/-- The failures of a PLAY before its commit, each by the first check that fails: not constructed, zero length,
table outside TMEM whatever the other operands are (R132, R89). -/
def Obligations.PlayReportsTheFirstFailingCheck : Prop :=
  ∀ (len tbase : Nat) (f o : Word) (s : State),
    ∀ i ∈ [Instr.playFloor len f o tbase, .playLinear len f o tbase, .playCubic len f o tbase],
    (s.lifecycle = .uninit → exec i s = .next { s with
      flags := s.flags ||| 2#7, lastCause := 2#4, response := some ⟨0x00000000#32, 2#4⟩ }) ∧
    (s.lifecycle = .ready → len = 0 → exec i s = .next { s with
      flags := s.flags ||| 8#7, lastCause := 4#4, response := some ⟨0x00000000#32, 4#4⟩ }) ∧
    (s.lifecycle = .ready → 0 < len → s.tmemWords < tbase + len → exec i s = .next { s with
      flags := s.flags ||| 16#7, lastCause := 5#4, response := some ⟨0x00000000#32, 5#4⟩ })

/-- R83: where one of inc, off, s and n is not finite, a PLAY fails with cause 6 and changes no register but STATUS;
a frequency or offset that is an infinity or a NaN always causes this. -/
def Obligations.NonFinitePhaseArithmeticFailsWithCauseSix : Prop :=
  ∀ (len tbase : Nat) (f o : Word) (s : State) (inc off sum next : Val),
    s.lifecycle = .ready → 0 < len → tbase + len ≤ s.tmemWords →
    inc = fmul (fmul (f32 f) (ofInt len)) (f32 s.srRecip) → off = fmul (f32 o) (ofInt len) →
    sum = fadd (f32 s.phase) off → next = fadd (f32 s.phase) inc →
    (inc.isFinite = false ∨ off.isFinite = false ∨ sum.isFinite = false ∨ next.isFinite = false ∨
      f.extractLsb' 23 8 = 255#8 ∨ o.extractLsb' 23 8 = 255#8) →
    ∀ i ∈ [Instr.playFloor len f o tbase, .playLinear len f o tbase, .playCubic len f o tbase],
      exec i s = .next { s with
        flags := s.flags ||| 32#7, lastCause := 6#4, response := some ⟨0x00000000#32, 6#4⟩ }

/-- R87: a PLAY that passes its checks leaves PHASE in [0, L), never -0.0, at `n mod L`: exactly so for n >= 0, and
otherwise at the binary32 value nearest to it, where a value rounded up to L is +0.0. -/
def Obligations.PhaseAdvancesModuloTheLength : Prop :=
  ∀ (len tbase : Nat) (f o : Word) (s : State) (inc off sum next : Val),
    PlayPasses len f o tbase s inc off sum next →
    ∀ i ∈ [Instr.playFloor len f o tbase, .playLinear len f o tbase, .playCubic len f o tbase],
    ∃ (t : State) (m : Nat), exec i s = .next t ∧ f32 t.phase = .finite false m ∧ m < len * unitsPerOne ∧
      (0 ≤ next.units → (m : Int) = next.units % (len * unitsPerOne : Nat)) ∧
      ∃ y : Nat, (y = m ∨ (m = 0 ∧ y = len * unitsPerOne)) ∧
        ∀ x : Word, (f32 x).isFinite = true →
          |(y : Int) - next.units % (len * unitsPerOne : Nat)| ≤
            |(f32 x).units - next.units % (len * unitsPerOne : Nat)|

/-- R20: a PLAY that commits, whatever the state was, leaves PHASE below its own length and not -0.0. -/
def Obligations.CommittedPhaseIsBelowTheLength : Prop :=
  ∀ (len tbase : Nat) (f o : Word) (s t : State) (r : Response), len < 2 ^ 24 →
    ∀ i ∈ [Instr.playFloor len f o tbase, .playLinear len f o tbase, .playCubic len f o tbase],
    exec i s = .next t → t.response = some r → (r.cause = 0#4 ∨ r.cause = 7#4) →
    t.phase.toNat < 0x7F800000 ∧ (f32 t.phase).units < len * unitsPerOne

/-- R88: no PLAY answers a NaN or an infinity, and where one answers cause 7, DATA is +0.0 and the phase has
advanced. -/
def Obligations.NoNanOrInfinityLeavesThePlay : Prop :=
  ∀ (len tbase : Nat) (f o : Word) (s t : State),
    ∀ i ∈ [Instr.playFloor len f o tbase, .playLinear len f o tbase, .playCubic len f o tbase],
    exec i s = .next t →
    ∃ r, t.response = some r ∧ (f32 r.data).isFinite = true ∧
      (r.cause = 7#4 → r.data = 0x00000000#32 ∧
        t.phase = (wrap (fadd (f32 s.phase) (fmul (fmul (f32 f) (ofInt len)) (f32 s.srRecip))).units len).bits)

/-- R89: a PLAY writes PHASE and, on failure, STATUS, and nothing else; PHASE only when checks 1 to 6 pass. -/
def Obligations.PlayWritesOnlyPhaseAndStatus : Prop :=
  ∀ (len tbase : Nat) (f o : Word) (s t : State),
    ∀ i ∈ [Instr.playFloor len f o tbase, .playLinear len f o tbase, .playCubic len f o tbase],
    exec i s = .next t →
    ∃ r, t.response = some r ∧
      t = { s with phase := t.phase, flags := t.flags, lastCause := t.lastCause, response := some r } ∧
      (r.cause = 0#4 → t.flags = s.flags ∧ t.lastCause = s.lastCause) ∧
      (r.cause ≠ 0#4 → r.cause ≠ 7#4 → t.phase = s.phase)

/-- R96: a PLAY reads the words its kind names and no others: replacing TMEM by any contents that agree on these
words changes nothing of what it does; one that fails a check reads none; and every word it names lies in its
table, inside TMEM. -/
def Obligations.PlayReadsOnlyTheEntriesOfItsKind : Prop :=
  ∀ (len tbase : Nat) (f o : Word) (s s' t t' : State) (m n : List Host.Cell), len < 2 ^ 24 →
    s' = { s with mem := m, tmemInit := n } → t' = { t with mem := m, tmemInit := n } →
    (exec (.playFloor len f o tbase) s = .next t →
      s'.memRead (playAddress len o tbase s 0) = s.memRead (playAddress len o tbase s 0) →
      exec (.playFloor len f o tbase) s' = .next t') ∧
    (exec (.playLinear len f o tbase) s = .next t →
      (∀ k ∈ [(0 : Int), 1], s'.memRead (playAddress len o tbase s k) = s.memRead (playAddress len o tbase s k)) →
      exec (.playLinear len f o tbase) s' = .next t') ∧
    (exec (.playCubic len f o tbase) s = .next t →
      (∀ k ∈ [(-1 : Int), 0, 1, 2],
        s'.memRead (playAddress len o tbase s k) = s.memRead (playAddress len o tbase s k)) →
      exec (.playCubic len f o tbase) s' = .next t') ∧
    (∀ i ∈ [Instr.playFloor len f o tbase, .playLinear len f o tbase, .playCubic len f o tbase],
      ∀ r, exec i s = .next t → t.response = some r → r.cause ≠ 0#4 → r.cause ≠ 7#4 →
      exec i s' = .next t') ∧
    (0 < len → tbase + len ≤ s.tmemWords → ∀ k : Int,
      tbase ≤ playAddress len o tbase s k ∧ playAddress len o tbase s k < tbase + len ∧
        playAddress len o tbase s k < s.tmemWords)

/-- R94: with frequency +0.0 or -0.0 a PLAY that commits sets PHASE to PHASE wrapped, and with a fixed table, offset
and kind every PLAY from the second one on finds and leaves the same phase and gives the same answer; so does the
first when PHASE is below the length on entry. -/
def Obligations.ZeroFrequencyRepeatsTheSample : Prop :=
  ∀ (len tbase : Nat) (f o : Word) (s t u v : State), s.registersLegal → 0 < len → len < 2 ^ 24 →
    f = 0x00000000#32 ∨ f = 0x80000000#32 →
    ∀ i ∈ [Instr.playFloor len f o tbase, .playLinear len f o tbase, .playCubic len f o tbase],
    exec i s = .next t → exec i t = .next u → exec i u = .next v →
    (∀ r, t.response = some r → r.cause = 0#4 ∨ r.cause = 7#4 →
      t.phase = (wrap (f32 s.phase).units len).bits) ∧
    u.phase = t.phase ∧ v.phase = u.phase ∧ v.response = u.response ∧
      ((f32 s.phase).units < len * unitsPerOne → t.phase = s.phase ∧ u.response = t.response)

/-- R95: at an integer read position, with a finite entry and a finite slope or finite coefficients, PLAY.LINEAR and
PLAY.CUBIC do exactly what PLAY.FLOOR does, except that a -0.0 entry, which PLAY.FLOOR answers as it is stored, comes
back as +0.0. That this holds for a falling table too is the model's reading (notes/assumptions/20.md). -/
def Obligations.KindsAgreeAtIntegerPositions : Prop :=
  ∀ (len tbase i : Nat) (f o : Word) (s t : State) (p0 p1 p2 p3 : Val), s.lifecycle ≠ .released →
    0 < len → len < 2 ^ 24 →
    frac (wrap (fadd (f32 s.phase) (fmul (f32 o) (ofInt len))).units len) = .finite false 0 →
    i = ifloor (wrap (fadd (f32 s.phase) (fmul (f32 o) (ofInt len))).units len) →
    p0 = f32 (s.memRead (tbase + (i + len - 1) % len)) → p1 = f32 (s.memRead (tbase + i)) →
    p2 = f32 (s.memRead (tbase + (i + 1) % len)) → p3 = f32 (s.memRead (tbase + (i + 2) % len)) →
    p1.isFinite = true → exec (.playFloor len f o tbase) s = .next t →
    ∀ u : State, (s.memRead (tbase + i) ≠ 0x80000000#32 → u = t) →
      (s.memRead (tbase + i) = 0x80000000#32 →
        u = { t with response := t.response.map (fun r => { r with data := 0x00000000#32 }) }) →
    ((fsub p2 p1).isFinite = true → exec (.playLinear len f o tbase) s = .next u) ∧
    ((fmul (f32 0x3F000000#32) (fsub p2 p0)).isFinite = true →
      (fsub (fadd (fsub p0 (fmul (f32 0x40200000#32) p1)) (fmul (f32 0x40000000#32) p2))
        (fmul (f32 0x3F000000#32) p3)).isFinite = true →
      (fadd (fmul (f32 0x3F000000#32) (fsub p3 p0)) (fmul (f32 0x3FC00000#32) (fsub p1 p2))).isFinite = true →
      exec (.playCubic len f o tbase) s = .next u)

/-! ## Arithmetic -/

/-- R11: the sign is bit 31, the biased exponent bits 30:23 and the fraction bits 22:0 of a pattern, with the values
of R11 counted in units of 2^-149; and a finite pattern is the pattern of its own value. -/
def Obligations.PatternsDenoteTheirValues : Prop :=
  ∀ (w : Word) (e m : Nat) (neg : Bool), neg = decide (2 ^ 31 ≤ w.toNat) → e = w.toNat / 2 ^ 23 % 2 ^ 8 →
    m = w.toNat % 2 ^ 23 →
    (e = 0 → f32 w = .finite neg m) ∧
    (1 ≤ e → e ≤ 254 → f32 w = .finite neg ((2 ^ 23 + m) * 2 ^ (e - 1))) ∧
    (e = 255 → m = 0 → f32 w = .inf neg) ∧ (e = 255 → m ≠ 0 → f32 w = .nan) ∧
    (e ≠ 255 → (f32 w).isFinite = true ∧ (f32 w).bits = w)

/-- R16: a position in [0, L) splits exactly into its integer part, below L, and its fraction, a binary32 value in
[0, 1); and every length up to 2^24 is a binary32 value. -/
def Obligations.PositionsSplitExactly : Prop :=
  (∀ (w : Word) (len m : Nat), f32 w = .finite false m → m < len * unitsPerOne →
    ifloor (f32 w) < len ∧ ∃ (x : Word) (k : Nat), frac (f32 w) = .finite false k ∧ f32 x = .finite false k ∧
      k < unitsPerOne ∧ ifloor (f32 w) * unitsPerOne + k = m) ∧
  (∀ n : Nat, n ≤ 2 ^ 24 → ∃ x : Word, f32 x = ofInt n ∧ (ofInt n).units = n * unitsPerOne)

/-- R12: `rnd` overflows exactly from 2^128 - 2^103 on; otherwise it answers a binary32 value of the given sign that
no other finite binary32 value is nearer than, and of two equally near ones the one with an even pattern. -/
def Obligations.RoundingIsToNearestTiesToEven : Prop :=
  ∀ (neg : Bool) (num den : Nat), 0 < den →
    (rnd neg num den = .inf neg ↔ den * ((2 ^ 25 - 1) * 2 ^ 252) ≤ num) ∧
    (num < den * ((2 ^ 25 - 1) * 2 ^ 252) →
      ∃ (m : Nat) (w : Word), rnd neg num den = .finite neg m ∧ w = (Val.finite neg m).bits ∧
        f32 w = .finite neg m ∧
        ∀ (x : Word) (sign : Bool) (k : Nat), f32 x = .finite sign k →
          |(m * den : Int) - num| ≤ |(k * den : Int) - num| ∧
          (|(m * den : Int) - num| = |(k * den : Int) - num| → k ≠ m → w.getLsbD 0 = false))

/-- R12, R13 for finite operands: sums, differences, products and quotients by a nonzero divisor are the exact results
rounded once, overflow and ties included, with the signs of zero that R13 gives. -/
def Obligations.SumsAndProductsAreRoundedOnce : Prop :=
  ∀ (a b : Word) (x y : Bool) (j k : Nat), f32 a = .finite x j → f32 b = .finite y k →
    (fadd (f32 a) (f32 b)).roundsOnce ((f32 a).units + (f32 b).units) 1 ∧
    (fsub (f32 a) (f32 b)).roundsOnce ((f32 a).units - (f32 b).units) 1 ∧
    (fmul (f32 a) (f32 b)).roundsOnce ((f32 a).units * (f32 b).units) unitsPerOne ∧
    (k ≠ 0 → (fdiv (f32 a) (f32 b)).roundsOnce ((if x = y then 1 else -1) * (j * unitsPerOne : Nat)) k) ∧
    ((f32 a).units + (f32 b).units = 0 → fadd (f32 a) (f32 b) = .finite (x && y) 0) ∧
    ((f32 a).units - (f32 b).units = 0 → fsub (f32 a) (f32 b) = .finite (x && !y) 0) ∧
    (j = 0 ∨ k = 0 → fmul (f32 a) (f32 b) = .finite (x != y) 0) ∧
    (j = 0 → k ≠ 0 → fdiv (f32 a) (f32 b) = .finite (x != y) 0)

/-- R14: no sum, difference or product of a non-finite value is finite. -/
def Obligations.NonFiniteValuesPropagate : Prop :=
  ∀ a b : Val, a.isFinite = false ∨ b.isFinite = false →
    (fadd a b).isFinite = false ∧ (fsub a b).isFinite = false ∧ (fmul a b).isFinite = false

/-- R15 for x >= 0: the remainder is exact, no rounding occurs. -/
def Obligations.WrapOfANonNegativeValueIsExact : Prop :=
  ∀ (w : Word) (len m : Nat), 0 < len → len < 2 ^ 24 → f32 w = .finite false m →
    wrap (f32 w).units len = .finite false (m % (len * unitsPerOne))

/-! ## Errors and the model fault -/

/-- R133, R24, R25: a command that answers a cause c > 0 has set STATUS[c + 3] and LAST_CAUSE and changed no other
flag; one that succeeds changes neither, but CLRST, which clears both. -/
def Obligations.FailuresAreRecordedInStatus : Prop :=
  ∀ (i : Instr) (s t : State) (r : Response), exec i s = .next t → t.response = some r →
    (r.cause ≠ 0#4 → r.cause.toNat ≤ 7 ∧ r.data = 0x00000000#32 ∧ t.lastCause = r.cause ∧
      ∀ n, 4 ≤ n → n ≤ 10 →
        t.statusWord.getLsbD n = (s.statusWord.getLsbD n || decide (n = r.cause.toNat + 3))) ∧
    (r.cause = 0#4 → i.mnemonic ≠ "CLRST" → t.flags = s.flags ∧ t.lastCause = s.lastCause) ∧
    (i.mnemonic = "CLRST" → r.cause = 0#4 ∧ t.flags = 0#7 ∧ t.lastCause = 0#4)

/-- R131: which command can end with which cause, illegal words apart, and that only the commands named there can
raise the model fault, in RELEASED. -/
def Obligations.CausesAndFaultsOfEachCommand : Prop :=
  (∀ (i : Instr) (s t : State), exec i s = .next t → ∃ r, t.response = some r ∧
    (i.mnemonic = "INIT" → r.cause.toNat ∈ [0, 3]) ∧
    (i.mnemonic = "SETSR" → r.cause.toNat ∈ [0, 2, 3]) ∧
    (i.mnemonic ∈ ["PLAY.FLOOR", "PLAY.LINEAR", "PLAY.CUBIC"] → r.cause.toNat ∈ [0, 2, 4, 5, 6, 7]) ∧
    (i.mnemonic ∈ ["RD.STATUS", "RD.PHASE", "RD.SRRECIP", "CLRST"] → r.cause.toNat = 0) ∧
    (i.mnemonic = "RELEASE" → r.cause.toNat ∈ [0, 2])) ∧
  (∀ (i : Instr) (s : State) (e : Fault), exec i s = .fault e → s.lifecycle = .released ∧
    i.mnemonic ∈ ["SETSR", "PLAY.FLOOR", "PLAY.LINEAR", "PLAY.CUBIC", "RD.PHASE", "RD.SRRECIP", "RELEASE"]) ∧
  (∀ (i : Instr) (s : State) (e : Refusal), exec i s ≠ .refused e)

/-- R136: a packet of a command not defined in RELEASED raises the model fault there: the mark is set with that very
packet recorded, no register and no TMEM changes, there is no response; INIT, RD.STATUS, CLRST and illegal words
stay defined. That a step is then a fault that carries this state, and that the marked state takes no further step,
is the model's reading (notes/assumptions/4.md). -/
def Obligations.UseAfterReleaseFaultsWithThePacketRecorded : Prop :=
  ∀ (p : Packet) (rest : List HostInput) (s : State), s.faulted = none → s.lifecycle = .released →
    s.inputs = .command p :: rest →
    (definedInReleased p = false → ∃ u, step s = .fault (.useAfterRelease u) ∧
      u = { s with inputs := rest, faulted := some ⟨.useAfterRelease, p⟩, response := none } ∧
      step u = .fault (.useAfterRelease u)) ∧
    (definedInReleased p = true → ∃ t, step s = .next t ∧ t.faulted = none)

/-- R29: a recorded fault is never cleared, not even by reset. That this is so because no step of such a state gives
a next state, and that no next state of any step has one recorded, is the model's reading (notes/assumptions/4.md). -/
def Obligations.RecordedFaultIsNeverCleared : Prop :=
  (∀ (s : State) (r : FaultRecord), s.faulted = some r → step s = .fault (.useAfterRelease s)) ∧
  (∀ s t : State, step s = .next t → s.faulted = none ∧ t.faulted = none)

/-- A step stops exactly where a fault is recorded, the host uses a released engine, or it writes an address that
TMEM does not have; everything else goes on (R131, R136). The stop at a recorded fault (notes/assumptions/4.md), the
stop at the write (7.md) and going on where no interaction is left (5.md) are the model's own choices. -/
def Obligations.StepStopsOnlyForAnUndutifulHost : Prop :=
  ∀ s : State, (∃ t, step s = .next t) ↔
    s.faulted = none ∧ ∀ input rest, s.inputs = input :: rest → input.dutiful s.tmemWords s.lifecycle = true

/-! ## Frames and whole-machine rules -/

/-- R41: no step but a host table write changes TMEM, and none changes TMEM_WORDS or
TMEM_INIT. -/
def Obligations.OnlyTheHostWritesTmem : Prop :=
  (∀ (i : Instr) (s t : State), exec i s = .next t →
    t.mem = s.mem ∧ ∀ a, t.memByte a = s.memByte a) ∧
  (∀ s t : State, step s = .next t → t.tmemTop = s.tmemTop ∧ t.tmemInit = s.tmemInit ∧
    ((∀ a w rest, s.inputs ≠ .tableWrite a w :: rest) →
      ∀ a, t.memByte a = s.memByte a))

/-- R20, R21, R22: the writers of PHASE are INIT and the PLAY commands, of SR_RECIP INIT and SETSR, of STATE INIT and
RELEASE, and no other command; each next state of a command leaves TMEM, its two parameters, the mark
FAULTED and the host's interactions as they were. -/
def Obligations.RegistersAreWrittenOnlyByTheirWriters : Prop :=
  ∀ (i : Instr) (s t : State), exec i s = .next t →
    (i.mnemonic ∉ ["INIT", "PLAY.FLOOR", "PLAY.LINEAR", "PLAY.CUBIC"] → t.phase = s.phase) ∧
    (i.mnemonic ∉ ["INIT", "SETSR"] → t.srRecip = s.srRecip) ∧
    (i.mnemonic ∉ ["INIT", "RELEASE"] → t.lifecycle = s.lifecycle) ∧
    t.mem = s.mem ∧ t.tmemInit = s.tmemInit ∧ t.tmemTop = s.tmemTop ∧ t.faulted = s.faulted ∧ t.inputs = s.inputs

/-- STATE after a step is what the host's next interaction makes it: INIT, RELEASE and reset write it and nothing
else does (R22, R110, R117, R150). -/
def Obligations.StateFollowsTheLifecycle : Prop :=
  ∀ s t : State, step s = .next t →
    (s.inputs = [] → t.lifecycle = s.lifecycle) ∧
    (∀ input rest, s.inputs = input :: rest → t.lifecycle = s.lifecycle.after input ∧ t.inputs = rest)

/-! ## Invariants -/

/-- R30: every step keeps PHASE and SR_RECIP finite and not negative, SR_RECIP positive in READY and both +0.0 in
UNINIT. -/
def Obligations.EveryStepKeepsTheRegistersLegal : Prop :=
  ∀ s t : State, s.registersLegal → step s = .next t → t.registersLegal

/-- The registers are legal at reset (R30, R150). -/
def Obligations.ResetRegistersAreLegal : Prop := State.reset.registersLegal

/-- Every step keeps the flags and LAST_CAUSE consistent: LAST_CAUSE is 0 with all flags clear or a code from 1 to 7
whose flag is set (R23, R24, R25, R130). -/
def Obligations.EveryStepKeepsTheStatusConsistent : Prop :=
  ∀ s t : State, s.statusConsistent → step s = .next t → t.statusConsistent

/-- The status is consistent at reset (R150). -/
def Obligations.ResetStatusIsConsistent : Prop := State.reset.statusConsistent

/-- Every step keeps TMEM in its canonical form and inside its words (R40; the form is the model's,
notes/assumptions/3.md). -/
def Obligations.EveryStepKeepsTmemLegal : Prop :=
  ∀ s t : State, s.memLegal → step s = .next t → t.memLegal

/-- TMEM is legal at reset, and every byte of it is what the parameter TMEM_INIT has there (R8, R152); the form is the
model's choice (notes/assumptions/2.md and 3.md). -/
def Obligations.ResetTmemIsLegal : Prop :=
  State.reset.memLegal ∧ ∀ a, State.reset.memByte a = Memory.unwritten Config.tmemInit a

/-- With legal registers, no answer of RD.PHASE or RD.SRRECIP is a NaN, an infinity or negative (R30). -/
def Obligations.RegisterReadsNeverAnswerANan : Prop :=
  ∀ (w1 w2 w3 : Word) (s t : State) (r : Response), s.registersLegal →
    ∀ i ∈ [Instr.rdPhase w1 w2 w3, .rdSrrecip w1 w2 w3],
    exec i s = .next t → t.response = some r → r.data.toNat < 0x7F800000

/-- A host that keeps its duties never meets a fault: from any state without one, its whole list of interactions
runs to its end, and STATE ends where the lifecycle says (R156, R136). The duty to write only addresses that TMEM
has is the model's choice (notes/assumptions/7.md), and so is the list (5.md). -/
def Obligations.ADutifulHostNeverMeetsAFault : Prop :=
  ∀ s : State, s.faulted = none → dutifulScript s.tmemWords s.lifecycle s.inputs = true →
    safeRun s.inputs.length s ∧
    ∀ t, Host.Core.run Sys2Proof.core s.inputs.length s = .next t →
      t.inputs = [] ∧ t.lifecycle = s.inputs.foldl Lifecycle.after s.lifecycle

/-! ## Assembler -/

/-- A line assembles to a command exactly when its first word is the command's mnemonic in lower case, its operands
are read as the command's operands in R74's order, and the words the command ignores are zero; the instruction is
then well formed and its one packet decodes back to it (R74, R75). How a line is cut into words (what is white space,
that it is dropped around the line and its operands) and that every other line gives no command is the model's choice
where R74 leaves it open (notes/assumptions/15.md). -/
def Obligations.AssembledCommandsDecodeBack : Prop :=
  ∀ (line text : List Char) (ops : List (List Char)) (i : Instr), text = trimBlank (withoutComment line) →
    ops = operandsOf (text.dropWhile (fun c => !isBlank c)) →
    (assembleLine line = .ok (some (.instr i)) →
      i.wellFormed = true ∧ decode (AsmItem.packet (.instr i)) = .ok i) ∧
    (assembleLine line = .ok (some (.instr i)) ↔
      text.takeWhile (fun c => !isBlank c) = i.mnemonic.toList.map Char.toLower ∧
      ((∃ sr a, (i = .init sr 0x00000000#32 0x00000000#32 ∨ i = .setsr sr 0x00000000#32 0x00000000#32) ∧
          ops = [a] ∧ parseNumber a = .ok sr) ∨
       (∃ len f o tbase a b c d,
          (i = .playFloor len f o tbase ∨ i = .playLinear len f o tbase ∨ i = .playCubic len f o tbase) ∧
          ops = [a, b, c, d] ∧ parseInteger (2 ^ 24) a = .ok len ∧ parseNumber b = .ok f ∧ parseNumber c = .ok o ∧
          parseInteger (2 ^ 32) d = .ok tbase) ∨
       (i ∈ [Instr.rdStatus 0#32 0#32 0#32, .rdPhase 0#32 0#32 0#32, .rdSrrecip 0#32 0#32 0#32,
          .clrst 0#32 0#32 0#32, .release 0#32 0#32 0#32] ∧ ops = [])))

/-- Lines written in R74's syntax assemble to their commands, where the operands are texts without white space, commas
and semicolons that R74 reads as numbers; a comment after the command changes nothing. -/
def Obligations.WrittenLinesAssembleToTheirCommands : Prop :=
  ∀ (a b c d comment : List Char) (len tbase : Nat) (f o : Word),
    (∀ ch ∈ a ++ b ++ c ++ d, ch ≠ ' ' ∧ ch ≠ '\t' ∧ ch ≠ ',' ∧ ch ≠ ';') →
    parseInteger (2 ^ 24) a = .ok len → parseNumber b = .ok f → parseNumber c = .ok o →
    parseInteger (2 ^ 32) d = .ok tbase → comment = [] ∨ comment.head? = some ';' →
    (∀ line, line = a ++ ", ".toList ++ b ++ ", ".toList ++ c ++ ", ".toList ++ d ++ comment →
      assembleLine ("play.floor ".toList ++ line) = .ok (some (.instr (.playFloor len f o tbase))) ∧
      assembleLine ("play.linear ".toList ++ line) = .ok (some (.instr (.playLinear len f o tbase))) ∧
      assembleLine ("play.cubic ".toList ++ line) = .ok (some (.instr (.playCubic len f o tbase)))) ∧
    assembleLine ("init ".toList ++ b ++ comment) = .ok (some (.instr (.init f 0x00000000#32 0x00000000#32))) ∧
    assembleLine ("setsr ".toList ++ b ++ comment) = .ok (some (.instr (.setsr f 0x00000000#32 0x00000000#32))) ∧
    assembleLine ("rd.status".toList ++ comment) = .ok (some (.instr (.rdStatus 0#32 0#32 0#32))) ∧
    assembleLine ("rd.phase".toList ++ comment) = .ok (some (.instr (.rdPhase 0#32 0#32 0#32))) ∧
    assembleLine ("rd.srrecip".toList ++ comment) = .ok (some (.instr (.rdSrrecip 0#32 0#32 0#32))) ∧
    assembleLine ("clrst".toList ++ comment) = .ok (some (.instr (.clrst 0#32 0#32 0#32))) ∧
    assembleLine ("release".toList ++ comment) = .ok (some (.instr (.release 0#32 0#32 0#32)))

/-- A decimal literal, written as an optional minus sign, digits and optionally a point and further digits, is never
rounded: it is accepted exactly when some binary32 pattern has the number it denotes, and then it stands for that
number with the sign written; otherwise it is refused as not exact (R74; the form of the literal is
notes/assumptions/15.md). -/
def Obligations.DecimalLiteralsAreNeverRounded : Prop :=
  ∀ (neg : Bool) (whole places : List Nat) (text : List Char) (num den : Nat),
    whole ≠ [] → (∀ d ∈ whole ++ places, d < 10) →
    text = (if neg then ['-'] else []) ++ whole.map Nat.digitChar ++
      (if places = [] then [] else '.' :: places.map Nat.digitChar) →
    num = Nat.ofDigits 10 (whole ++ places).reverse → den = 10 ^ places.length →
    (∀ w, parseNumber text = .ok w → ∃ m, f32 w = .finite neg m ∧ m * den = num * unitsPerOne) ∧
    ((∃ w, parseNumber text = .ok w) ↔
      ∃ (x : Word) (sign : Bool) (m : Nat), f32 x = .finite sign m ∧ m * den = num * unitsPerOne) ∧
    ((¬ ∃ w, parseNumber text = .ok w) → parseNumber text = .error .notExact)
end

