-- ==== Sys2Proof/Laws/Assembler.lean ====
section
/-! SUPPORT. What the assembler's shared parsers can answer. -/

namespace Sys2Proof.Machine

/-- An integer that is accepted lies below its limit (spec/30_encoding.md R74). -/
theorem parseInteger_lt {limit n : Nat} {cs : List Char} (h : parseInteger limit cs = .ok n) : n < limit := by
  unfold parseInteger at h
  dsimp only at h
  split at h
  · cases h
  · split at h
    · cases h; assumption
    · cases h

/-- A command with a rate carries zeros in its ignored words. -/
theorem asmRate_instr {build : Word → Word → Word → Instr} {ops : List (List Char)} {i : Instr}
    (h : asmRate build ops = .ok (.instr i)) : ∃ w, i = build w 0x00000000#32 0x00000000#32 := by
  unfold asmRate at h
  split at h
  · split at h
    · cases h; exact ⟨_, rfl⟩
    · cases h
  · cases h

/-- A command without operands carries zeros in its words. -/
theorem asmPlain_instr {build : Word → Word → Word → Instr} {ops : List (List Char)} {i : Instr}
    (h : asmPlain build ops = .ok (.instr i)) : i = build 0x00000000#32 0x00000000#32 0x00000000#32 := by
  unfold asmPlain at h
  split at h
  · cases h; rfl
  · cases h

/-- A PLAY carries a length and a base that fit their fields. -/
theorem asmPlay_instr {build : Nat → Word → Word → Nat → Instr} {ops : List (List Char)} {i : Instr}
    (h : asmPlay build ops = .ok (.instr i)) :
    ∃ len f o tbase, i = build len f o tbase ∧ len < 2 ^ 24 ∧ tbase < 2 ^ 32 := by
  unfold asmPlay at h
  split at h
  · split at h
    · rename_i h1 h2 h3 h4
      cases h; exact ⟨_, _, _, _, rfl, parseInteger_lt h1, parseInteger_lt h4⟩
    all_goals cases h
  · cases h

/-- A raw line is no command. -/
theorem asmRaw_ne_instr {ops : List (List Char)} {i : Instr} : asmRaw ops ≠ .ok (.instr i) := by
  intro h
  unfold asmRaw at h
  split at h
  · split at h <;> cases h
  · cases h

end Sys2Proof.Machine
end

