-- ==== Sys2Proof/Laws/Binary32.lean ====
section
/-! SUPPORT. What the binary32 operations can answer: representable magnitudes, patterns, rounding, wrap. -/

namespace Sys2Proof.Machine

/-- A magnitude that some finite binary32 value has: at most 24 significant bits above its quantum. -/
abbrev IsMag (m : Nat) : Prop := quantumExp m ≤ 253 ∧ 2 ^ quantumExp m ∣ m

theorem lt_two_pow_quantumExp (n : Nat) : n < 2 ^ (quantumExp n + 24) := by
  refine lt_of_lt_of_le Nat.lt_log2_self (Nat.pow_le_pow_right (by decide) ?_)
  unfold quantumExp; omega

theorem two_pow_le_of_quantumExp_pos {n : Nat} (h : 0 < quantumExp n) :
    2 ^ (quantumExp n + 23) ≤ n := by
  have hlog : quantumExp n + 23 = n.log2 := by unfold quantumExp at *; omega
  rw [hlog]
  refine Nat.log2_self_le ?_
  rintro rfl
  simp [quantumExp] at h

theorem quantumExp_of_lt {n : Nat} (h : n < 2 ^ 24) : quantumExp n = 0 := by
  by_contra hne
  have h1 := two_pow_le_of_quantumExp_pos (Nat.pos_of_ne_zero hne)
  have h2 : 2 ^ 24 ≤ 2 ^ (quantumExp n + 23) := Nat.pow_le_pow_right (by decide) (by omega)
  omega

theorem quantumExp_le {n e : Nat} (h : n < 2 ^ (e + 24)) : quantumExp n ≤ e := by
  by_contra hlt
  have h1 := two_pow_le_of_quantumExp_pos (n := n) (by omega)
  have h2 : 2 ^ (e + 24) ≤ 2 ^ (quantumExp n + 23) := Nat.pow_le_pow_right (by decide) (by omega)
  omega

theorem quantumExp_eq {n e : Nat} (hlo : 2 ^ (e + 23) ≤ n) (hhi : n < 2 ^ (e + 24)) : quantumExp n = e := by
  refine le_antisymm (quantumExp_le hhi) ?_
  by_contra hlt
  have h1 := lt_two_pow_quantumExp n
  have h2 : 2 ^ (quantumExp n + 24) ≤ 2 ^ (e + 23) := Nat.pow_le_pow_right (by decide) (by omega)
  omega

/-- Any number of at most 24 bits times a power of two within the exponent range is a magnitude. -/
theorem isMag_mul {sig e : Nat} (hs : sig < 2 ^ 24) (he : e ≤ 253) : IsMag (sig * 2 ^ e) := by
  have hq : quantumExp (sig * 2 ^ e) ≤ e := by
    refine quantumExp_le ?_
    rw [pow_add, mul_comm]
    exact Nat.mul_lt_mul_of_pos_left hs (by positivity)
  exact ⟨by omega, (Nat.pow_dvd_pow 2 hq).trans (Dvd.intro_left _ rfl)⟩

theorem isMag_zero : IsMag 0 := ⟨by simp [quantumExp], Dvd.intro_left 0 rfl⟩

theorem isMag_ofInt {n : Nat} (h : n < 2 ^ 24) : IsMag (n * unitsPerOne) := isMag_mul h (by decide)

/-- The significand of a magnitude, below 2^24. -/
theorem IsMag.exists_sig {m : Nat} (h : IsMag m) :
    ∃ sig, sig < 2 ^ 24 ∧ m = sig * 2 ^ quantumExp m := by
  obtain ⟨k, hk⟩ := h.2
  have hlt := lt_two_pow_quantumExp m
  refine ⟨k, ?_, by rw [mul_comm]; exact hk⟩
  rw [pow_add] at hlt
  exact Nat.lt_of_mul_lt_mul_left (a := 2 ^ quantumExp m) (by omega)

/-- The 31 bits below the sign of a magnitude. -/
def magPattern (m : Nat) : Nat := quantumExp m * 2 ^ 23 + m / 2 ^ quantumExp m

theorem magPattern_lt {m : Nat} (h : IsMag m) : magPattern m < 0x7F800000 := by
  obtain ⟨sig, hs, hm⟩ := h.exists_sig
  have hd : m / 2 ^ quantumExp m = sig := by
    conv_lhs => rw [hm]
    have : sig * 2 ^ quantumExp m / 2 ^ quantumExp m = sig := Nat.mul_div_cancel _ (by positivity)
    rw [← hm] at this ⊢; exact this
  have := h.1
  unfold magPattern
  rw [hd]; omega

@[simp] theorem signed_toNat (neg : Bool) (p : Nat) :
    (signed neg p).toNat = neg.toNat * 2 ^ 31 + p % 2 ^ 31 := by
  unfold signed
  rw [BitVec.toNat_append, ← Nat.shiftLeft_add_eq_or_of_lt (by exact (BitVec.ofNat 31 p).isLt), Nat.shiftLeft_eq]
  simp

theorem bits_finite (neg : Bool) (m : Nat) : (Val.finite neg m).bits = signed neg (magPattern m) := rfl

theorem bits_toNat {neg : Bool} {m : Nat} (h : IsMag m) :
    (Val.finite neg m).bits.toNat = neg.toNat * 2 ^ 31 + magPattern m := by
  have := magPattern_lt h
  rw [bits_finite, signed_toNat, Nat.mod_eq_of_lt (by omega)]

theorem f32_sign_exponent_fraction (w : Word) :
    w.toNat = (w.getLsbD 31).toNat * 2 ^ 31 + (w.extractLsb' 23 8).toNat * 2 ^ 23 + (w.extractLsb' 0 23).toNat := by
  have hlt := w.isLt
  have hs : (w.getLsbD 31).toNat = w.toNat / 2 ^ 31 := by
    rw [BitVec.getLsbD, Nat.testBit_eq_decide_div_mod_eq]
    have : w.toNat / 2 ^ 31 = 0 ∨ w.toNat / 2 ^ 31 = 1 := by omega
    rcases this with h | h
    · norm_num at h; simp [Nat.div_eq_of_lt h]
    · norm_num at h; simp [h]
  simp only [BitVec.extractLsb'_toNat, hs, Nat.shiftRight_eq_div_pow]
  omega

/-- What a pattern can stand for: one of the three kinds of spec/00_scope.md R11. -/
theorem f32_cases (w : Word) :
    ((w.extractLsb' 23 8).toNat = 255 ∧ (w.extractLsb' 0 23).toNat = 0 ∧ f32 w = .inf (w.getLsbD 31)) ∨
    ((w.extractLsb' 23 8).toNat = 255 ∧ (w.extractLsb' 0 23).toNat ≠ 0 ∧ f32 w = .nan) ∨
    ((w.extractLsb' 23 8).toNat < 255 ∧ ∃ m, f32 w = .finite (w.getLsbD 31) m ∧ IsMag m ∧
      magPattern m = (w.extractLsb' 23 8).toNat * 2 ^ 23 + (w.extractLsb' 0 23).toNat) := by
  have he := (w.extractLsb' 23 8).isLt
  have hm := (w.extractLsb' 0 23).isLt
  generalize hE : (w.extractLsb' 23 8).toNat = e at *
  generalize hM : (w.extractLsb' 0 23).toNat = m at *
  simp only [f32, hE, hM]
  by_cases h255 : e = 255
  · by_cases h0 : m = 0
    · exact .inl ⟨h255, h0, by simp [h255, h0]⟩
    · exact .inr (.inl ⟨h255, h0, by simp [h255, h0]⟩)
  · refine .inr (.inr ⟨by omega, ?_⟩)
    rw [if_neg h255]
    by_cases h0 : e = 0
    · have hq : quantumExp m = 0 := quantumExp_of_lt (by omega)
      have := isMag_mul (sig := m) (e := 0) (by omega) (by omega)
      exact ⟨m, by simp [h0], by simpa using this, by simp [magPattern, hq, h0]⟩
    · have hq : quantumExp ((2 ^ 23 + m) * 2 ^ (e - 1)) = e - 1 := by
        refine quantumExp_eq ?_ ?_
        · rw [pow_add, mul_comm]; exact Nat.mul_le_mul_right _ (by omega)
        · rw [pow_add, mul_comm]; exact Nat.mul_lt_mul_of_pos_left (by omega) (by positivity)
      refine ⟨_, by rw [if_neg h0], isMag_mul (by omega) (by omega), ?_⟩
      rw [magPattern, hq, Nat.mul_div_cancel _ (by positivity)]
      have : e = (e - 1) + 1 := by omega
      omega

theorem f32_finite_isMag {w : Word} {neg : Bool} {m : Nat} (h : f32 w = .finite neg m) : IsMag m := by
  rcases f32_cases w with ⟨-, -, h'⟩ | ⟨-, -, h'⟩ | ⟨-, m', h', hm, -⟩
  · rw [h'] at h; cases h
  · rw [h'] at h; cases h
  · rw [h'] at h; cases h; exact hm

/-- A pattern is finite exactly when its exponent field is not all ones (spec/00_scope.md R11). -/
theorem f32_isFinite_iff (w : Word) : (f32 w).isFinite = true ↔ w.extractLsb' 23 8 ≠ 255#8 := by
  have key : w.extractLsb' 23 8 = 255#8 ↔ (w.extractLsb' 23 8).toNat = 255 := by
    rw [← BitVec.toNat_inj]; rfl
  rw [Ne, key]
  rcases f32_cases w with ⟨he, -, h'⟩ | ⟨he, -, h'⟩ | ⟨he, m', h', -⟩ <;> rw [h']
  · simp [Val.isFinite, he]
  · simp [Val.isFinite, he]
  · exact ⟨fun _ => he.ne, fun _ => rfl⟩

/-- Writing a finite value back gives the pattern it was read from. -/
theorem bits_f32 {w : Word} (h : (f32 w).isFinite = true) : (f32 w).bits = w := by
  have hw := f32_sign_exponent_fraction w
  rcases f32_cases w with ⟨-, -, h'⟩ | ⟨-, -, h'⟩ | ⟨-, m, h', hm, hp⟩
  · simp [h', Val.isFinite] at h
  · simp [h', Val.isFinite] at h
  · apply BitVec.eq_of_toNat_eq
    rw [h', bits_toNat hm, hp]
    omega

theorem signed_getLsbD_31 (neg : Bool) (p : Nat) : (signed neg p).getLsbD 31 = neg := by
  rw [signed, BitVec.getLsbD_append]; simp

/-- Reading back the pattern of a representable value gives the value. -/
theorem f32_bits {neg : Bool} {m : Nat} (h : IsMag m) : f32 (Val.finite neg m).bits = .finite neg m := by
  have hlt := magPattern_lt h
  have hp := bits_toNat (neg := neg) h
  have hw := f32_sign_exponent_fraction (Val.finite neg m).bits
  have hs : (Val.finite neg m).bits.getLsbD 31 = neg := by rw [bits_finite, signed_getLsbD_31]
  have hfrac := ((Val.finite neg m).bits.extractLsb' 0 23).isLt
  rw [hs, hp] at hw
  rcases f32_cases (Val.finite neg m).bits with ⟨he, -, -⟩ | ⟨he, -, -⟩ | ⟨-, m', h', hm', hp'⟩
  · omega
  · omega
  · rw [h', hs]
    have hpat : magPattern m' = magPattern m := by omega
    congr 1
    obtain ⟨s, hs, hm⟩ := h.exists_sig
    obtain ⟨s', hs', hm''⟩ := hm'.exists_sig
    have hd : m / 2 ^ quantumExp m = s := by
      have : s * 2 ^ quantumExp m / 2 ^ quantumExp m = s := Nat.mul_div_cancel _ (by positivity)
      rw [← hm] at this; exact this
    have hd' : m' / 2 ^ quantumExp m' = s' := by
      have : s' * 2 ^ quantumExp m' / 2 ^ quantumExp m' = s' := Nat.mul_div_cancel _ (by positivity)
      rw [← hm''] at this; exact this
    have hlow : ∀ {k t : Nat}, IsMag k → k = t * 2 ^ quantumExp k → 0 < quantumExp k → 2 ^ 23 ≤ t := by
      intro k t _ hk hpos
      have := two_pow_le_of_quantumExp_pos hpos
      rw [pow_add, mul_comm (2 ^ quantumExp k), ] at this
      rw [hk] at this
      by_contra hlt'
      have h2 : t * 2 ^ quantumExp k < 2 ^ 23 * 2 ^ quantumExp k :=
        Nat.mul_lt_mul_of_pos_right (by omega) (by positivity)
      rw [← hk] at this h2
      omega
    simp only [magPattern, hd, hd'] at hpat
    have hq : quantumExp m' = quantumExp m := by
      rcases Nat.eq_zero_or_pos (quantumExp m) with h0 | h0 <;>
        rcases Nat.eq_zero_or_pos (quantumExp m') with h0' | h0'
      · omega
      · have := hlow hm' hm'' h0'; omega
      · have := hlow h hm h0; omega
      · have := hlow hm' hm'' h0'; have := hlow h hm h0; omega
    rw [hm'', hm, hq]
    congr 1; omega

/-- The finite patterns of non-negative sign, apart from -0.0, are those below 0x7F800000. -/
theorem bits_toNat_lt {m : Nat} (h : IsMag m) : (Val.finite false m).bits.toNat < 0x7F800000 := by
  rw [bits_toNat h]; simpa using magPattern_lt h

theorem f32_of_lt {w : Word} (h : w.toNat < 0x7F800000) :
    ∃ m, f32 w = .finite false m ∧ IsMag m ∧ magPattern m = w.toNat := by
  have hw := f32_sign_exponent_fraction w
  have hs : w.getLsbD 31 = false := by
    cases hb : w.getLsbD 31
    · rfl
    · rw [hb] at hw; simp at hw; omega
  rcases f32_cases w with ⟨he, -, -⟩ | ⟨he, -, -⟩ | ⟨-, m, h', hm, hp⟩
  · omega
  · omega
  · refine ⟨m, by rw [h', hs], hm, ?_⟩
    rw [hp, hw, hs]; simp

/-- A value whose magnitude, if it is finite, is one that a binary32 pattern has. -/
def Val.Rep : Val → Prop
  | .finite _ m => IsMag m
  | .inf _ => True
  | .nan => True

theorem f32_rep (w : Word) : (f32 w).Rep := by
  rcases f32_cases w with ⟨-, -, h⟩ | ⟨-, -, h⟩ | ⟨-, m, h, hm, -⟩ <;> rw [h]
  · trivial
  · trivial
  · exact hm

theorem Val.Rep.f32_bits {v : Val} (h : v.Rep) (hf : v.isFinite = true) : f32 v.bits = v := by
  cases v with
  | finite neg m => exact Sys2Proof.Machine.f32_bits h
  | inf neg => simp [Val.isFinite] at hf
  | nan => simp [Val.isFinite] at hf

theorem nearestEven_mul (k : Nat) {den : Nat} (h : 0 < den) : nearestEven (k * den) den = k := by
  simp [nearestEven, Nat.mul_div_cancel _ h, h.ne]

theorem nearestEven_le {num den k : Nat} (hd : 0 < den) (h : num ≤ k * den) : nearestEven num den ≤ k := by
  rcases Nat.eq_or_lt_of_le h with rfl | hlt
  · exact (nearestEven_mul k hd).le
  · have : num / den < k := Nat.div_lt_of_lt_mul (by rwa [mul_comm])
    unfold nearestEven
    dsimp only
    split
    · omega
    · split <;> omega

theorem le_nearestEven {num den k : Nat} (hd : 0 < den) (h : k * den ≤ num) : k ≤ nearestEven num den := by
  have : k ≤ num / den := (Nat.le_div_iff_mul_le hd).2 h
  unfold nearestEven
  dsimp only
  split
  · omega
  · split <;> omega

theorem quantumExp_mono {n k : Nat} (h : n ≤ k) : quantumExp n ≤ quantumExp k :=
  quantumExp_le (lt_of_le_of_lt h (lt_two_pow_quantumExp k))

theorem lt_quantum {num den : Nat} (hd : 0 < den) :
    num < 2 ^ 24 * (den * 2 ^ quantumExp (num / den)) := by
  have h1 := lt_two_pow_quantumExp (num / den)
  rw [Nat.div_lt_iff_lt_mul hd, pow_add] at h1
  calc num < _ := h1
    _ = _ := by ring

/-- What rounding can answer (spec/00_scope.md R12): an infinity, or a representable value, of the same sign. -/
theorem rnd_cases (neg : Bool) (num : Nat) {den : Nat} (hd : 0 < den) :
    rnd neg num den = .inf neg ∨ ∃ m, rnd neg num den = .finite neg m ∧ IsMag m := by
  unfold rnd
  simp only
  split
  · exact .inl rfl
  · rename_i he
    have hle : nearestEven num (den * 2 ^ quantumExp (num / den)) ≤ 2 ^ 24 :=
      nearestEven_le (by positivity) (lt_quantum hd).le
    split
    · exact .inl rfl
    · rename_i hov
      refine .inr ⟨_, rfl, ?_⟩
      rcases Nat.lt_or_eq_of_le hle with hlt | heq
      · exact isMag_mul hlt (by omega)
      · rw [heq]
        have : 2 ^ 24 * 2 ^ quantumExp (num / den) = 2 ^ 23 * 2 ^ (quantumExp (num / den) + 1) := by ring
        rw [this]
        exact isMag_mul (by decide) (by omega)

theorem rnd_rep (neg : Bool) (num : Nat) {den : Nat} (hd : 0 < den) : (rnd neg num den).Rep := by
  rcases rnd_cases neg num hd with h | ⟨m, h, hm⟩ <;> rw [h]
  · trivial
  · exact hm

/-- Rounding never passes a representable value. -/
theorem rnd_le {neg : Bool} {num den k : Nat} (hd : 0 < den) (hk : IsMag k) (h : num ≤ k * den) :
    ∃ m, rnd neg num den = .finite neg m ∧ IsMag m ∧ m ≤ k := by
  have hq : quantumExp (num / den) ≤ quantumExp k :=
    quantumExp_mono (Nat.div_le_of_le_mul (by rwa [mul_comm]))
  obtain ⟨t, ht⟩ := (Nat.pow_dvd_pow 2 hq).trans hk.2
  obtain ⟨sig, hs, hsig⟩ := hk.exists_sig
  have hle : nearestEven num (den * 2 ^ quantumExp (num / den)) ≤ t := by
    refine nearestEven_le (by positivity) (h.trans (le_of_eq ?_))
    rw [ht]; ring
  have he : ¬ 253 < quantumExp (num / den) := by have := hk.1; omega
  have hov : ¬ (quantumExp (num / den) = 253 ∧
      nearestEven num (den * 2 ^ quantumExp (num / den)) = 2 ^ 24) := by
    rintro ⟨h1, h2⟩
    have hk253 : quantumExp k = 253 := by have := hk.1; omega
    have : t = sig := by
      rw [h1] at ht; rw [hk253] at hsig
      have : 2 ^ 253 * t = 2 ^ 253 * sig := by rw [← ht]; rw [mul_comm]; exact hsig
      exact Nat.eq_of_mul_eq_mul_left (by positivity) this
    omega
  have hval : rnd neg num den = .finite neg
      (nearestEven num (den * 2 ^ quantumExp (num / den)) * 2 ^ quantumExp (num / den)) := by
    unfold rnd
    simp only [if_neg he, if_neg hov]
  have hrep := rnd_rep neg num hd
  rw [hval] at hrep
  refine ⟨_, hval, hrep, ?_⟩
  calc _ ≤ t * 2 ^ quantumExp (num / den) := Nat.mul_le_mul_right _ hle
    _ = k := by rw [mul_comm]; exact ht.symm

/-- Rounding keeps a representable value. -/
theorem rnd_exact {neg : Bool} {m den : Nat} (hd : 0 < den) (hm : IsMag m) :
    rnd neg (m * den) den = .finite neg m := by
  obtain ⟨sig, hs, hsig⟩ := hm.exists_sig
  have hdiv : m * den / den = m := Nat.mul_div_cancel _ hd
  have hne : nearestEven (m * den) (den * 2 ^ quantumExp m) = sig := by
    have : m * den = sig * (den * 2 ^ quantumExp m) := by
      conv_lhs => rw [hsig]
      ring
    rw [this]; exact nearestEven_mul sig (by positivity)
  unfold rnd
  simp only [hdiv, hne]
  rw [if_neg (by have := hm.1; omega), if_neg (by omega), ← hsig]

theorem rnd_exact_one {neg : Bool} {m : Nat} (hm : IsMag m) : rnd neg m 1 = .finite neg m := by
  simpa using rnd_exact (neg := neg) (den := 1) (by decide) hm

theorem fneg_rep {a : Val} (h : a.Rep) : (fneg a).Rep := by cases a <;> exact h

theorem unitsPerOne_pos : 0 < unitsPerOne := by decide

theorem fadd_rep (a b : Val) : (fadd a b).Rep := by
  cases a <;> cases b <;> simp only [fadd]
  case finite.finite x m y k =>
    split
    · exact isMag_zero
    · exact rnd_rep _ _ (by decide)
  case inf.inf => split <;> trivial
  all_goals trivial

theorem fsub_rep (a b : Val) : (fsub a b).Rep := fadd_rep _ _

theorem fmul_rep (a b : Val) : (fmul a b).Rep := by
  cases a <;> cases b <;> simp only [fmul]
  case finite.finite => exact rnd_rep _ _ unitsPerOne_pos
  all_goals first | trivial | (split <;> trivial)

theorem fdiv_rep (a b : Val) : (fdiv a b).Rep := by
  cases a <;> cases b <;> simp only [fdiv]
  case finite.finite x m y k =>
    split
    · split <;> trivial
    · exact rnd_rep _ _ (Nat.pos_of_ne_zero ‹_›)
  case finite.inf => exact isMag_zero
  all_goals trivial

/-- What `wrap` answers (spec/00_scope.md R15): a value of positive sign, representable and below the length. -/
theorem wrap_cases (x : Int) {len : Nat} (h0 : 0 < len) (hlen : len < 2 ^ 24) :
    ∃ m, wrap x len = .finite false m ∧ IsMag m ∧ m < len * unitsPerOne := by
  have hpos : 0 < len * unitsPerOne := Nat.mul_pos h0 unitsPerOne_pos
  have hr : (x % ((len * unitsPerOne : Nat) : Int)).toNat ≤ len * unitsPerOne * 1 := by
    have := Int.emod_lt_of_pos x (b := ((len * unitsPerOne : Nat) : Int)) (by exact_mod_cast hpos)
    omega
  obtain ⟨m, hm, hmag, hle⟩ := rnd_le (neg := false) (by decide) (isMag_ofInt hlen) hr
  unfold wrap
  simp only [hm, ofInt]
  split
  · exact ⟨0, rfl, isMag_zero, hpos⟩
  · rename_i hne
    refine ⟨m, rfl, hmag, lt_of_le_of_ne hle ?_⟩
    rintro rfl
    exact hne rfl

theorem ifloor_lt {len m : Nat} (h : m < len * unitsPerOne) : ifloor (.finite false m) < len := by
  simpa [ifloor, Val.units] using (Nat.div_lt_iff_lt_mul unitsPerOne_pos).2 h

/-- The read position of a PLAY lies in its table (spec/40_play.md R82). -/
theorem ifloor_wrap_lt (x : Int) {len : Nat} (h0 : 0 < len) (hlen : len < 2 ^ 24) : ifloor (wrap x len) < len := by
  obtain ⟨m, hm, -, hlt⟩ := wrap_cases x h0 hlen
  rw [hm]; exact ifloor_lt hlt

end Sys2Proof.Machine
end

