-- ==== Sys2Proof/Laws/State.lean ====
section
/-! SUPPORT. One lemma per field per update of the state, so that no proof unfolds an update. -/

namespace Sys2Proof.Machine

variable (s : State)

@[simp] theorem State.setPhase_phase (w : Word) : (s.setPhase w).phase = w := rfl
@[simp] theorem State.setPhase_srRecip (w : Word) : (s.setPhase w).srRecip = s.srRecip := rfl
@[simp] theorem State.setPhase_lifecycle (w : Word) : (s.setPhase w).lifecycle = s.lifecycle := rfl
@[simp] theorem State.setPhase_flags (w : Word) : (s.setPhase w).flags = s.flags := rfl
@[simp] theorem State.setPhase_lastCause (w : Word) : (s.setPhase w).lastCause = s.lastCause := rfl
@[simp] theorem State.setPhase_mem (w : Word) : (s.setPhase w).mem = s.mem := rfl
@[simp] theorem State.setPhase_tmemInit (w : Word) : (s.setPhase w).tmemInit = s.tmemInit := rfl
@[simp] theorem State.setPhase_tmemTop (w : Word) : (s.setPhase w).tmemTop = s.tmemTop := rfl
@[simp] theorem State.setPhase_faulted (w : Word) : (s.setPhase w).faulted = s.faulted := rfl
@[simp] theorem State.setPhase_inputs (w : Word) : (s.setPhase w).inputs = s.inputs := rfl
@[simp] theorem State.setPhase_response (w : Word) : (s.setPhase w).response = s.response := rfl

@[simp] theorem State.setSrRecip_phase (w : Word) : (s.setSrRecip w).phase = s.phase := rfl
@[simp] theorem State.setSrRecip_srRecip (w : Word) : (s.setSrRecip w).srRecip = w := rfl
@[simp] theorem State.setSrRecip_lifecycle (w : Word) : (s.setSrRecip w).lifecycle = s.lifecycle := rfl
@[simp] theorem State.setSrRecip_flags (w : Word) : (s.setSrRecip w).flags = s.flags := rfl
@[simp] theorem State.setSrRecip_lastCause (w : Word) : (s.setSrRecip w).lastCause = s.lastCause := rfl
@[simp] theorem State.setSrRecip_mem (w : Word) : (s.setSrRecip w).mem = s.mem := rfl
@[simp] theorem State.setSrRecip_tmemInit (w : Word) : (s.setSrRecip w).tmemInit = s.tmemInit := rfl
@[simp] theorem State.setSrRecip_tmemTop (w : Word) : (s.setSrRecip w).tmemTop = s.tmemTop := rfl
@[simp] theorem State.setSrRecip_faulted (w : Word) : (s.setSrRecip w).faulted = s.faulted := rfl
@[simp] theorem State.setSrRecip_inputs (w : Word) : (s.setSrRecip w).inputs = s.inputs := rfl
@[simp] theorem State.setSrRecip_response (w : Word) : (s.setSrRecip w).response = s.response := rfl

@[simp] theorem State.setLifecycle_phase (l : Lifecycle) : (s.setLifecycle l).phase = s.phase := rfl
@[simp] theorem State.setLifecycle_srRecip (l : Lifecycle) : (s.setLifecycle l).srRecip = s.srRecip := rfl
@[simp] theorem State.setLifecycle_lifecycle (l : Lifecycle) : (s.setLifecycle l).lifecycle = l := rfl
@[simp] theorem State.setLifecycle_flags (l : Lifecycle) : (s.setLifecycle l).flags = s.flags := rfl
@[simp] theorem State.setLifecycle_lastCause (l : Lifecycle) : (s.setLifecycle l).lastCause = s.lastCause := rfl
@[simp] theorem State.setLifecycle_mem (l : Lifecycle) : (s.setLifecycle l).mem = s.mem := rfl
@[simp] theorem State.setLifecycle_tmemInit (l : Lifecycle) : (s.setLifecycle l).tmemInit = s.tmemInit := rfl
@[simp] theorem State.setLifecycle_tmemTop (l : Lifecycle) : (s.setLifecycle l).tmemTop = s.tmemTop := rfl
@[simp] theorem State.setLifecycle_faulted (l : Lifecycle) : (s.setLifecycle l).faulted = s.faulted := rfl
@[simp] theorem State.setLifecycle_inputs (l : Lifecycle) : (s.setLifecycle l).inputs = s.inputs := rfl
@[simp] theorem State.setLifecycle_response (l : Lifecycle) : (s.setLifecycle l).response = s.response := rfl

@[simp] theorem State.setInputs_phase (is : List HostInput) : (s.setInputs is).phase = s.phase := rfl
@[simp] theorem State.setInputs_srRecip (is : List HostInput) : (s.setInputs is).srRecip = s.srRecip := rfl
@[simp] theorem State.setInputs_lifecycle (is : List HostInput) : (s.setInputs is).lifecycle = s.lifecycle := rfl
@[simp] theorem State.setInputs_flags (is : List HostInput) : (s.setInputs is).flags = s.flags := rfl
@[simp] theorem State.setInputs_lastCause (is : List HostInput) : (s.setInputs is).lastCause = s.lastCause := rfl
@[simp] theorem State.setInputs_mem (is : List HostInput) : (s.setInputs is).mem = s.mem := rfl
@[simp] theorem State.setInputs_tmemInit (is : List HostInput) : (s.setInputs is).tmemInit = s.tmemInit := rfl
@[simp] theorem State.setInputs_tmemTop (is : List HostInput) : (s.setInputs is).tmemTop = s.tmemTop := rfl
@[simp] theorem State.setInputs_faulted (is : List HostInput) : (s.setInputs is).faulted = s.faulted := rfl
@[simp] theorem State.setInputs_inputs (is : List HostInput) : (s.setInputs is).inputs = is := rfl
@[simp] theorem State.setInputs_response (is : List HostInput) : (s.setInputs is).response = s.response := rfl

@[simp] theorem State.noResponse_phase : s.noResponse.phase = s.phase := rfl
@[simp] theorem State.noResponse_srRecip : s.noResponse.srRecip = s.srRecip := rfl
@[simp] theorem State.noResponse_lifecycle : s.noResponse.lifecycle = s.lifecycle := rfl
@[simp] theorem State.noResponse_flags : s.noResponse.flags = s.flags := rfl
@[simp] theorem State.noResponse_lastCause : s.noResponse.lastCause = s.lastCause := rfl
@[simp] theorem State.noResponse_mem : s.noResponse.mem = s.mem := rfl
@[simp] theorem State.noResponse_tmemInit : s.noResponse.tmemInit = s.tmemInit := rfl
@[simp] theorem State.noResponse_tmemTop : s.noResponse.tmemTop = s.tmemTop := rfl
@[simp] theorem State.noResponse_faulted : s.noResponse.faulted = s.faulted := rfl
@[simp] theorem State.noResponse_inputs : s.noResponse.inputs = s.inputs := rfl
@[simp] theorem State.noResponse_response : s.noResponse.response = none := rfl

@[simp] theorem State.respond_phase (d : Word) : (s.respond d).phase = s.phase := rfl
@[simp] theorem State.respond_srRecip (d : Word) : (s.respond d).srRecip = s.srRecip := rfl
@[simp] theorem State.respond_lifecycle (d : Word) : (s.respond d).lifecycle = s.lifecycle := rfl
@[simp] theorem State.respond_flags (d : Word) : (s.respond d).flags = s.flags := rfl
@[simp] theorem State.respond_lastCause (d : Word) : (s.respond d).lastCause = s.lastCause := rfl
@[simp] theorem State.respond_mem (d : Word) : (s.respond d).mem = s.mem := rfl
@[simp] theorem State.respond_tmemInit (d : Word) : (s.respond d).tmemInit = s.tmemInit := rfl
@[simp] theorem State.respond_tmemTop (d : Word) : (s.respond d).tmemTop = s.tmemTop := rfl
@[simp] theorem State.respond_faulted (d : Word) : (s.respond d).faulted = s.faulted := rfl
@[simp] theorem State.respond_inputs (d : Word) : (s.respond d).inputs = s.inputs := rfl
@[simp] theorem State.respond_response (d : Word) : (s.respond d).response = some ⟨d, 0#4⟩ := rfl

@[simp] theorem State.recordCause_phase (c : Cause) : (s.recordCause c).phase = s.phase := rfl
@[simp] theorem State.recordCause_srRecip (c : Cause) : (s.recordCause c).srRecip = s.srRecip := rfl
@[simp] theorem State.recordCause_lifecycle (c : Cause) : (s.recordCause c).lifecycle = s.lifecycle := rfl
@[simp] theorem State.recordCause_flags (c : Cause) : (s.recordCause c).flags = s.flags ||| c.flag := rfl
@[simp] theorem State.recordCause_lastCause (c : Cause) : (s.recordCause c).lastCause = c.code := rfl
@[simp] theorem State.recordCause_mem (c : Cause) : (s.recordCause c).mem = s.mem := rfl
@[simp] theorem State.recordCause_tmemInit (c : Cause) : (s.recordCause c).tmemInit = s.tmemInit := rfl
@[simp] theorem State.recordCause_tmemTop (c : Cause) : (s.recordCause c).tmemTop = s.tmemTop := rfl
@[simp] theorem State.recordCause_faulted (c : Cause) : (s.recordCause c).faulted = s.faulted := rfl
@[simp] theorem State.recordCause_inputs (c : Cause) : (s.recordCause c).inputs = s.inputs := rfl
@[simp] theorem State.recordCause_response (c : Cause) : (s.recordCause c).response = s.response := rfl

@[simp] theorem State.clearCauses_phase : s.clearCauses.phase = s.phase := rfl
@[simp] theorem State.clearCauses_srRecip : s.clearCauses.srRecip = s.srRecip := rfl
@[simp] theorem State.clearCauses_lifecycle : s.clearCauses.lifecycle = s.lifecycle := rfl
@[simp] theorem State.clearCauses_flags : s.clearCauses.flags = 0#7 := rfl
@[simp] theorem State.clearCauses_lastCause : s.clearCauses.lastCause = 0#4 := rfl
@[simp] theorem State.clearCauses_mem : s.clearCauses.mem = s.mem := rfl
@[simp] theorem State.clearCauses_tmemInit : s.clearCauses.tmemInit = s.tmemInit := rfl
@[simp] theorem State.clearCauses_tmemTop : s.clearCauses.tmemTop = s.tmemTop := rfl
@[simp] theorem State.clearCauses_faulted : s.clearCauses.faulted = s.faulted := rfl
@[simp] theorem State.clearCauses_inputs : s.clearCauses.inputs = s.inputs := rfl
@[simp] theorem State.clearCauses_response : s.clearCauses.response = s.response := rfl

@[simp] theorem State.fail_phase (c : Cause) : (s.fail c).phase = s.phase := rfl
@[simp] theorem State.fail_srRecip (c : Cause) : (s.fail c).srRecip = s.srRecip := rfl
@[simp] theorem State.fail_lifecycle (c : Cause) : (s.fail c).lifecycle = s.lifecycle := rfl
@[simp] theorem State.fail_flags (c : Cause) : (s.fail c).flags = s.flags ||| c.flag := rfl
@[simp] theorem State.fail_lastCause (c : Cause) : (s.fail c).lastCause = c.code := rfl
@[simp] theorem State.fail_mem (c : Cause) : (s.fail c).mem = s.mem := rfl
@[simp] theorem State.fail_tmemInit (c : Cause) : (s.fail c).tmemInit = s.tmemInit := rfl
@[simp] theorem State.fail_tmemTop (c : Cause) : (s.fail c).tmemTop = s.tmemTop := rfl
@[simp] theorem State.fail_faulted (c : Cause) : (s.fail c).faulted = s.faulted := rfl
@[simp] theorem State.fail_inputs (c : Cause) : (s.fail c).inputs = s.inputs := rfl
@[simp] theorem State.fail_response (c : Cause) : (s.fail c).response = some ⟨0x00000000#32, c.code⟩ := rfl

@[simp] theorem State.markFaulted_phase (p : Packet) : (s.markFaulted p).phase = s.phase := rfl
@[simp] theorem State.markFaulted_srRecip (p : Packet) : (s.markFaulted p).srRecip = s.srRecip := rfl
@[simp] theorem State.markFaulted_lifecycle (p : Packet) : (s.markFaulted p).lifecycle = s.lifecycle := rfl
@[simp] theorem State.markFaulted_flags (p : Packet) : (s.markFaulted p).flags = s.flags := rfl
@[simp] theorem State.markFaulted_lastCause (p : Packet) : (s.markFaulted p).lastCause = s.lastCause := rfl
@[simp] theorem State.markFaulted_mem (p : Packet) : (s.markFaulted p).mem = s.mem := rfl
@[simp] theorem State.markFaulted_tmemInit (p : Packet) : (s.markFaulted p).tmemInit = s.tmemInit := rfl
@[simp] theorem State.markFaulted_tmemTop (p : Packet) : (s.markFaulted p).tmemTop = s.tmemTop := rfl
@[simp] theorem State.markFaulted_faulted (p : Packet) : (s.markFaulted p).faulted = some ⟨.useAfterRelease, p⟩ := rfl
@[simp] theorem State.markFaulted_inputs (p : Packet) : (s.markFaulted p).inputs = s.inputs := rfl
@[simp] theorem State.markFaulted_response (p : Packet) : (s.markFaulted p).response = none := rfl

@[simp] theorem State.resetRegisters_phase : s.resetRegisters.phase = 0#32 := rfl
@[simp] theorem State.resetRegisters_srRecip : s.resetRegisters.srRecip = 0#32 := rfl
@[simp] theorem State.resetRegisters_lifecycle : s.resetRegisters.lifecycle = .uninit := rfl
@[simp] theorem State.resetRegisters_flags : s.resetRegisters.flags = 0#7 := rfl
@[simp] theorem State.resetRegisters_lastCause : s.resetRegisters.lastCause = 0#4 := rfl
@[simp] theorem State.resetRegisters_mem : s.resetRegisters.mem = s.mem := rfl
@[simp] theorem State.resetRegisters_tmemInit : s.resetRegisters.tmemInit = s.tmemInit := rfl
@[simp] theorem State.resetRegisters_tmemTop : s.resetRegisters.tmemTop = s.tmemTop := rfl
@[simp] theorem State.resetRegisters_faulted : s.resetRegisters.faulted = s.faulted := rfl
@[simp] theorem State.resetRegisters_inputs : s.resetRegisters.inputs = s.inputs := rfl
@[simp] theorem State.resetRegisters_response : s.resetRegisters.response = none := rfl

@[simp] theorem State.withFetchWord_phase (nbits w : Nat) : (s.withFetchWord nbits w).phase = s.phase := rfl
@[simp] theorem State.withFetchWord_srRecip (nbits w : Nat) : (s.withFetchWord nbits w).srRecip = s.srRecip := rfl
@[simp] theorem State.withFetchWord_lifecycle (nbits w : Nat) : (s.withFetchWord nbits w).lifecycle = s.lifecycle := rfl
@[simp] theorem State.withFetchWord_flags (nbits w : Nat) : (s.withFetchWord nbits w).flags = s.flags := rfl
@[simp] theorem State.withFetchWord_lastCause (nbits w : Nat) : (s.withFetchWord nbits w).lastCause = s.lastCause := rfl
@[simp] theorem State.withFetchWord_mem (nbits w : Nat) : (s.withFetchWord nbits w).mem = s.mem := rfl
@[simp] theorem State.withFetchWord_tmemInit (nbits w : Nat) : (s.withFetchWord nbits w).tmemInit = s.tmemInit := rfl
@[simp] theorem State.withFetchWord_tmemTop (nbits w : Nat) : (s.withFetchWord nbits w).tmemTop = s.tmemTop := rfl
@[simp] theorem State.withFetchWord_faulted (nbits w : Nat) : (s.withFetchWord nbits w).faulted = s.faulted := rfl
@[simp] theorem State.withFetchWord_inputs (nbits w : Nat) : (s.withFetchWord nbits w).inputs = .command (packetOfTableWord nbits w) :: s.inputs := rfl
@[simp] theorem State.withFetchWord_response (nbits w : Nat) : (s.withFetchWord nbits w).response = s.response := rfl

theorem State.memRead_eq_of_mem {s t : State} (h : t.mem = s.mem) (hi : t.tmemInit = s.tmemInit) (a : Nat) :
    t.memRead a = s.memRead a := by
  rw [State.memRead, State.memRead, h, hi]

theorem State.memByte_eq_of_mem {s t : State} (h : t.mem = s.mem) (hi : t.tmemInit = s.tmemInit) (a : Nat) :
    t.memByte a = s.memByte a := by
  rw [State.memByte, State.memByte, h, hi]

theorem State.tmemWords_eq_of_tmemTop {s t : State} (h : t.tmemTop = s.tmemTop) : t.tmemWords = s.tmemWords := by
  rw [State.tmemWords, State.tmemWords, h]

theorem State.tmemWords_pos : 0 < s.tmemWords := Nat.succ_pos _

theorem State.tmemWords_le : s.tmemWords ≤ 2 ^ 32 := s.tmemTop.isLt

end Sys2Proof.Machine
end

