-- ==== Sys2Proof/Laws/Control.lean ====
section
/-! SUPPORT. What the control commands' shared parts can answer. -/

namespace Sys2Proof.Machine

/-- INIT never stops: it constructs, or fails with cause 3. -/
theorem execInit_cases (sr w2 w3 : Word) (s : State) :
    (validSr sr = true ∧ execInit sr w2 w3 s = .next
      ((((s.setSrRecip (reciprocal sr).bits).setPhase 0x00000000#32).setLifecycle .ready).respond 0x00000000#32)) ∨
    (validSr sr = false ∧ execInit sr w2 w3 s = .next
      ((((s.setSrRecip 0x00000000#32).setPhase 0x00000000#32).setLifecycle .uninit).fail .sr)) := by
  unfold execInit
  cases h : validSr sr <;> simp

/-- The next states of SETSR. -/
theorem execSetsr_next {sr w2 w3 : Word} {s t : State} (h : execSetsr sr w2 w3 s = .next t) :
    (s.lifecycle = .uninit ∧ t = s.fail .state) ∨
    (s.lifecycle = .ready ∧ validSr sr = true ∧ t = (s.setSrRecip (reciprocal sr).bits).respond 0x00000000#32) ∨
    (s.lifecycle = .ready ∧ validSr sr = false ∧ t = s.fail .sr) := by
  unfold execSetsr at h
  split at h
  · cases h
  · cases h; exact .inl ⟨‹_›, rfl⟩
  · rename_i hl
    split at h
    · cases h; exact .inr (.inl ⟨hl, ‹_›, rfl⟩)
    · cases h; exact .inr (.inr ⟨hl, Bool.eq_false_iff.2 ‹_›, rfl⟩)

/-- A register read answers outside RELEASED and raises the model fault in it. -/
theorem readRegister_cases (i : Instr) (data : Word) (s : State) :
    (s.lifecycle ≠ .released ∧ readRegister i data s = .next (s.respond data)) ∨
    (s.lifecycle = .released ∧ readRegister i data s = .fault (.useAfterRelease (s.markFaulted (encode i)))) := by
  unfold readRegister
  cases h : s.lifecycle <;> simp [raiseFault]

/-- The next states of RELEASE. -/
theorem execRelease_next {w1 w2 w3 : Word} {s t : State} (h : execRelease w1 w2 w3 s = .next t) :
    (s.lifecycle = .uninit ∧ t = s.fail .state) ∨
    (s.lifecycle = .ready ∧ t = (s.setLifecycle .released).respond 0x00000000#32) := by
  unfold execRelease at h
  split at h
  · cases h
  · cases h; exact .inl ⟨‹_›, rfl⟩
  · cases h; exact .inr ⟨‹_›, rfl⟩

/-- A valid sample rate is finite and positive, and so its reciprocal is finite (spec/41_control.md R111). -/
theorem validSr_iff (sr : Word) :
    validSr sr = true ↔
      (f32 sr).isFinite = true ∧ 0 < (f32 sr).units ∧ (reciprocal sr).isFinite = true := by
  simp [validSr, and_assoc]

end Sys2Proof.Machine
end

