-- ==== Sys2Proof/Laws/Decode.lean ====
section
/-! SUPPORT. The fields of command words, and what the decoder can answer. -/

namespace Sys2Proof

/-- A command word is its three fields. -/
theorem cmd_fields (cmd : Word) : argField cmd ++ mbzField cmd ++ opField cmd = cmd := by
  apply BitVec.eq_of_getLsbD_eq
  intro i hi
  simp only [argField, mbzField, opField, BitVec.getLsbD_append, BitVec.getLsbD_extractLsb']
  by_cases h4 : i < 4
  · simp [h4]
  · by_cases h8 : i < 8
    · have : i - 4 < 4 := by omega
      simp only [h4, this, if_true, if_false, decide_true, Bool.true_and]
      congr 1; omega
    · have h1 : ¬ i - 4 < 4 := by omega
      have h2 : i - 4 - 4 < 24 := by omega
      simp only [h4, h1, h2, if_false, decide_true, Bool.true_and]
      congr 1; omega

/-- The ARG field of the read group is MBZ2 above SEL. -/
theorem argField_eq (cmd : Word) : argField cmd = mbz2Field cmd ++ selField cmd := by
  apply BitVec.eq_of_getLsbD_eq
  intro i hi
  simp only [argField, mbz2Field, selField, BitVec.getLsbD_append, BitVec.getLsbD_extractLsb']
  by_cases h2 : i < 2
  · simp [h2]; omega
  · have h3 : i - 2 < 22 := by omega
    simp only [h2, h3, hi, if_false, decide_true, Bool.true_and]
    congr 1; omega

/-- The bits of a command word put together from its fields. -/
theorem getLsbD_cmd (arg : BitVec 24) (mbz op : BitVec 4) (j : Nat) :
    BitVec.getLsbD (w := 32) (arg ++ mbz ++ op) j =
      if j < 4 then op.getLsbD j else if j < 8 then mbz.getLsbD (j - 4) else arg.getLsbD (j - 8) := by
  show BitVec.getLsbD (w := 24 + 4 + 4) (arg ++ mbz ++ op) j = _
  rw [BitVec.getLsbD_append, BitVec.getLsbD_append]
  by_cases h4 : j < 4
  · simp [h4]
  · by_cases h8 : j < 8
    · have : j - 4 < 4 := by omega
      simp [h4, h8, this]
    · have : ¬ j - 4 < 4 := by omega
      have h : j - 4 - 4 = j - 8 := by omega
      simp [h4, h8, this, h]

@[simp] theorem opField_append (arg : BitVec 24) (mbz op : BitVec 4) : opField (arg ++ mbz ++ op) = op := by
  apply BitVec.eq_of_getLsbD_eq
  intro i hi
  rw [opField, BitVec.getLsbD_extractLsb', getLsbD_cmd]
  simp [hi]

@[simp] theorem mbzField_append (arg : BitVec 24) (mbz op : BitVec 4) : mbzField (arg ++ mbz ++ op) = mbz := by
  apply BitVec.eq_of_getLsbD_eq
  intro i hi
  rw [mbzField, BitVec.getLsbD_extractLsb', getLsbD_cmd]
  have : 4 + i < 8 := by omega
  simp [hi, this]

@[simp] theorem argField_append (arg : BitVec 24) (mbz op : BitVec 4) : argField (arg ++ mbz ++ op) = arg := by
  apply BitVec.eq_of_getLsbD_eq
  intro i hi
  rw [argField, BitVec.getLsbD_extractLsb', getLsbD_cmd]
  have : ¬ 8 + i < 4 := by omega
  simp [hi, this]

/-- What `withoutArg` can answer. -/
theorem withoutArg_ok {cmd : Word} {i j : Instr} (h : withoutArg cmd i = .ok j) : argField cmd = 0#24 ∧ j = i := by
  unfold withoutArg at h
  split at h
  · exact ⟨‹_›, by cases h; rfl⟩
  · cases h

/-- What the read group can decode to, and from which SEL. -/
theorem decodeRead_ok {p : Packet} {i : Instr} (h : decodeRead p = .ok i) :
    mbz2Field p.cmd = 0#22 ∧
    ((selField p.cmd = 0#2 ∧ i = .rdStatus p.w1 p.w2 p.w3) ∨
     (selField p.cmd = 1#2 ∧ i = .rdPhase p.w1 p.w2 p.w3) ∨
     (selField p.cmd = 2#2 ∧ i = .rdSrrecip p.w1 p.w2 p.w3)) := by
  unfold decodeRead at h
  split at h
  · refine ⟨‹_›, ?_⟩
    split at h
    · rename_i hs; cases h; exact .inl ⟨BitVec.eq_of_toNat_eq hs, rfl⟩
    · rename_i hs; cases h; exact .inr (.inl ⟨BitVec.eq_of_toNat_eq hs, rfl⟩)
    · rename_i hs; cases h; exact .inr (.inr ⟨BitVec.eq_of_toNat_eq hs, rfl⟩)
    · cases h
  · cases h

/-- The decoder by cases of the opcode: what each opcode of the map leads to. -/
theorem decode_ok {p : Packet} {i : Instr} (h : decode p = .ok i) :
    mbzField p.cmd = 0#4 ∧
    ((opField p.cmd = 1#4 ∧ argField p.cmd = 0#24 ∧ i = .init p.w1 p.w2 p.w3) ∨
     (opField p.cmd = 2#4 ∧ i = .playFloor (argField p.cmd).toNat p.w1 p.w2 p.w3.toNat) ∨
     (opField p.cmd = 3#4 ∧ i = .playLinear (argField p.cmd).toNat p.w1 p.w2 p.w3.toNat) ∨
     (opField p.cmd = 4#4 ∧ i = .playCubic (argField p.cmd).toNat p.w1 p.w2 p.w3.toNat) ∨
     (opField p.cmd = 5#4 ∧ argField p.cmd = 0#24 ∧ i = .setsr p.w1 p.w2 p.w3) ∨
     (opField p.cmd = 6#4 ∧ decodeRead p = .ok i) ∨
     (opField p.cmd = 7#4 ∧ argField p.cmd = 0#24 ∧ i = .clrst p.w1 p.w2 p.w3) ∨
     (opField p.cmd = 8#4 ∧ argField p.cmd = 0#24 ∧ i = .release p.w1 p.w2 p.w3)) := by
  unfold decode at h
  split at h
  · refine ⟨‹_›, ?_⟩
    have hop : ∀ n : Nat, n < 16 → (opField p.cmd).toNat = n → opField p.cmd = BitVec.ofNat 4 n := by
      intro n hn hp
      apply BitVec.eq_of_toNat_eq
      rw [hp, BitVec.toNat_ofNat, Nat.mod_eq_of_lt (by omega)]
    split at h
    · rename_i hs; exact .inl ⟨hop 1 (by omega) hs, withoutArg_ok h⟩
    · rename_i hs; cases h; exact .inr (.inl ⟨hop 2 (by omega) hs, rfl⟩)
    · rename_i hs; cases h; exact .inr (.inr (.inl ⟨hop 3 (by omega) hs, rfl⟩))
    · rename_i hs; cases h; exact .inr (.inr (.inr (.inl ⟨hop 4 (by omega) hs, rfl⟩)))
    · rename_i hs; exact .inr (.inr (.inr (.inr (.inl ⟨hop 5 (by omega) hs, withoutArg_ok h⟩))))
    · rename_i hs; exact .inr (.inr (.inr (.inr (.inr (.inl ⟨hop 6 (by omega) hs, h⟩)))))
    · rename_i hs; exact .inr (.inr (.inr (.inr (.inr (.inr (.inl ⟨hop 7 (by omega) hs, withoutArg_ok h⟩))))))
    · rename_i hs; exact .inr (.inr (.inr (.inr (.inr (.inr (.inr ⟨hop 8 (by omega) hs, withoutArg_ok h⟩))))))
    · cases h
  · cases h

end Sys2Proof
end

