-- ==== Sys2Proof/Laws/Play.lean ====
section
/-! SUPPORT. What the shared PLAY procedure can answer, once for the three commands. -/

namespace Sys2Proof.Machine

/-- What the rule of integer positions can answer: the curve's result, or +0.0 in place of a -0.0. -/
theorem atIntegerPosition_cases (fr y : Val) :
    (¬ (fr = .finite false 0 ∧ y = .finite true 0) ∧ atIntegerPosition fr y = y) ∨
    (fr = .finite false 0 ∧ y = .finite true 0 ∧ atIntegerPosition fr y = .finite false 0) := by
  unfold atIntegerPosition
  split
  · rename_i h; exact .inr ⟨h.1, h.2, rfl⟩
  · rename_i h; exact .inl ⟨h, rfl⟩

theorem atIntegerPosition_rep {fr y : Val} (h : y.Rep) : (atIntegerPosition fr y).Rep := by
  rcases atIntegerPosition_cases fr y with ⟨-, e⟩ | ⟨-, -, e⟩ <;> rw [e]
  · exact h
  · exact isMag_zero

/-- The next states of a PLAY: one of its six ends, with the checks that lead there (spec/40_play.md R89). -/
theorem play_next {interp : (Nat → Val) → Nat → Nat → Val → Val} {i : Instr} {len tbase : Nat} {f o : Word}
    {s t : State} (h : play interp i len f o tbase s = .next t) :
    (s.lifecycle = .uninit ∧ t = s.fail .state) ∨
    (s.lifecycle = .ready ∧ len = 0 ∧ t = s.fail .len0) ∨
    (s.lifecycle = .ready ∧ 0 < len ∧ s.tmemWords < tbase + len ∧ t = s.fail .range) ∨
    (s.lifecycle = .ready ∧ 0 < len ∧ tbase + len ≤ s.tmemWords ∧
      (phasePath len f o s.phase s.srRecip).isFinite = false ∧ t = s.fail .numeric) ∨
    (s.lifecycle = .ready ∧ 0 < len ∧ tbase + len ≤ s.tmemWords ∧
      (phasePath len f o s.phase s.srRecip).isFinite = true ∧
      t = playCommit (sampleAt interp len tbase ((phasePath len f o s.phase s.srRecip).position len) s)
        ((phasePath len f o s.phase s.srRecip).advanced len).bits s) := by
  unfold play at h
  split at h
  · cases h
  · cases h; exact .inl ⟨‹_›, rfl⟩
  · rename_i hl
    dsimp only at h
    split at h
    · cases h; exact .inr (.inl ⟨hl, ‹_›, rfl⟩)
    · rename_i h0
      split at h
      · cases h; exact .inr (.inr (.inl ⟨hl, Nat.pos_of_ne_zero h0, ‹_›, rfl⟩))
      · rename_i hr
        split at h
        · cases h; exact .inr (.inr (.inr (.inr ⟨hl, Nat.pos_of_ne_zero h0, by omega, ‹_›, rfl⟩)))
        · cases h; exact .inr (.inr (.inr (.inl ⟨hl, Nat.pos_of_ne_zero h0, by omega, Bool.eq_false_iff.2 ‹_›, rfl⟩)))

/-- A PLAY that passes checks 2 to 6 commits. -/
theorem play_of_checks {interp : (Nat → Val) → Nat → Nat → Val → Val} {i : Instr} {len tbase : Nat} {f o : Word}
    {s : State} (hl : s.lifecycle = .ready) (h0 : 0 < len) (hr : tbase + len ≤ s.tmemWords)
    (hp : (phasePath len f o s.phase s.srRecip).isFinite = true) :
    play interp i len f o tbase s = .next (playCommit
      (sampleAt interp len tbase ((phasePath len f o s.phase s.srRecip).position len) s)
      ((phasePath len f o s.phase s.srRecip).advanced len).bits s) := by
  unfold play
  rw [hl]
  simp [hp, Nat.pos_iff_ne_zero.1 h0, Nat.not_lt.2 hr]

/-- The only other outcome of a PLAY is the model fault, exactly in RELEASED. -/
theorem play_fault {interp : (Nat → Val) → Nat → Nat → Val → Val} {i : Instr} {len tbase : Nat} {f o : Word}
    {s : State} {r : Fault} (h : play interp i len f o tbase s = .fault r) :
    s.lifecycle = .released ∧ r = .useAfterRelease (s.markFaulted (encode i)) := by
  unfold play at h
  split at h
  · cases h; exact ⟨‹_›, rfl⟩
  · cases h
  · dsimp only at h
    repeat' split at h
    all_goals cases h

theorem play_ne_refused {interp : (Nat → Val) → Nat → Nat → Val → Val} {i : Instr} {len tbase : Nat} {f o : Word}
    {s : State} {r : Refusal} : play interp i len f o tbase s ≠ .refused r := by
  intro h
  unfold play at h
  split at h
  · cases h
  · cases h
  · dsimp only at h
    repeat' split at h
    all_goals cases h

/-- The commit of a PLAY: the phase is written, then the sample or cause 7 is answered. -/
theorem playCommit_cases (y : Val) (w : Word) (s : State) :
    (y.isFinite = true ∧ playCommit y w s = (s.setPhase w).respond y.bits) ∨
    (y.isFinite = false ∧ playCommit y w s = (s.setPhase w).fail .sample) := by
  unfold playCommit
  cases h : y.isFinite <;> simp

end Sys2Proof.Machine
end

