-- ==== Sys2Proof/Laws/Exec.lean ====
section
/-! SUPPORT. What a command can do, said once over all ten: every next state of `exec` is one of these ends. -/

namespace Sys2Proof.Machine

/-- The ends of a command that gives a next state, with the state it leaves (spec/40_play.md R89;
spec/41_control.md R110 to R117). The values a PLAY commits are in `play_next`. -/
inductive CommandEnd (i : Instr) (s t : State) : Prop where
  | initDone (sr w2 w3 : Word) (hi : i = .init sr w2 w3) (hv : validSr sr = true)
      (ht : t = (((s.setSrRecip (reciprocal sr).bits).setPhase 0x00000000#32).setLifecycle .ready).respond 0x00000000#32)
  | initFailed (sr w2 w3 : Word) (hi : i = .init sr w2 w3) (hv : validSr sr = false)
      (ht : t = (((s.setSrRecip 0x00000000#32).setPhase 0x00000000#32).setLifecycle .uninit).fail .sr)
  | setsrDone (sr w2 w3 : Word) (hi : i = .setsr sr w2 w3) (hl : s.lifecycle = .ready) (hv : validSr sr = true)
      (ht : t = (s.setSrRecip (reciprocal sr).bits).respond 0x00000000#32)
  | setsrFailed (sr w2 w3 : Word) (hi : i = .setsr sr w2 w3) (hl : s.lifecycle = .ready) (hv : validSr sr = false)
      (ht : t = s.fail .sr)
  | notConstructed (hi : i.mnemonic ∈ ["SETSR", "PLAY.FLOOR", "PLAY.LINEAR", "PLAY.CUBIC", "RELEASE"])
      (hl : s.lifecycle = .uninit) (ht : t = s.fail .state)
  | playFailed (c : Cause) (hi : i.mnemonic ∈ ["PLAY.FLOOR", "PLAY.LINEAR", "PLAY.CUBIC"])
      (hl : s.lifecycle = .ready) (hc : c ∈ [Cause.len0, .range, .numeric]) (ht : t = s.fail c)
  | playCommitted (y : Val) (w : Word) (hi : i.mnemonic ∈ ["PLAY.FLOOR", "PLAY.LINEAR", "PLAY.CUBIC"])
      (hl : s.lifecycle = .ready) (hw : i.wellFormed = true → w.toNat < 0x7F800000) (ht : t = playCommit y w s)
  | statusRead (hi : i.mnemonic = "RD.STATUS") (ht : t = s.respond s.statusWord)
  | phaseRead (hi : i.mnemonic = "RD.PHASE") (hl : s.lifecycle ≠ .released) (ht : t = s.respond s.phase)
  | srRecipRead (hi : i.mnemonic = "RD.SRRECIP") (hl : s.lifecycle ≠ .released) (ht : t = s.respond s.srRecip)
  | cleared (hi : i.mnemonic = "CLRST") (ht : t = s.clearCauses.respond 0x00000000#32)
  | destroyed (hi : i.mnemonic = "RELEASE") (hl : s.lifecycle = .ready)
      (ht : t = (s.setLifecycle .released).respond 0x00000000#32)

/-- A phase that a PLAY of a well-formed length commits is a finite pattern of positive sign
(spec/00_scope.md R15). -/
theorem wrap_bits_lt (x : Int) {len : Nat} (h0 : 0 < len) (hlen : len < 2 ^ 24) : (wrap x len).bits.toNat < 0x7F800000 := by
  obtain ⟨m, hm, hmag, -⟩ := wrap_cases x h0 hlen
  rw [hm]; exact bits_toNat_lt hmag

/-- The ends of the shared PLAY procedure. -/
theorem play_end {interp : (Nat → Val) → Nat → Nat → Val → Val} {i : Instr} {len tbase : Nat} {f o : Word}
    {s t : State} (hi : i.mnemonic ∈ ["PLAY.FLOOR", "PLAY.LINEAR", "PLAY.CUBIC"])
    (hlen : i.wellFormed = true → len < 2 ^ 24) (h : play interp i len f o tbase s = .next t) : CommandEnd i s t := by
  have hi' : i.mnemonic ∈ ["SETSR", "PLAY.FLOOR", "PLAY.LINEAR", "PLAY.CUBIC", "RELEASE"] := by
    simp only [List.mem_cons, List.not_mem_nil, or_false] at hi ⊢; tauto
  rcases play_next h with ⟨hl, ht⟩ | ⟨hl, -, ht⟩ | ⟨hl, -, -, ht⟩ | ⟨hl, -, -, -, ht⟩ | ⟨hl, h0, -, -, ht⟩
  · exact .notConstructed hi' hl ht
  · exact .playFailed _ hi hl (by simp) ht
  · exact .playFailed _ hi hl (by simp) ht
  · exact .playFailed _ hi hl (by simp) ht
  · exact .playCommitted _ _ hi hl (fun hw => wrap_bits_lt _ h0 (hlen hw)) ht

/-- Every next state of a command is one of the ends. -/
theorem exec_next {i : Instr} {s t : State} (h : exec i s = .next t) : CommandEnd i s t := by
  cases i with
  | init sr w2 w3 =>
    rcases execInit_cases sr w2 w3 s with ⟨hv, he⟩ | ⟨hv, he⟩ <;> rw [exec, he] at h <;> cases h
    · exact .initDone sr w2 w3 rfl hv rfl
    · exact .initFailed sr w2 w3 rfl hv rfl
  | playFloor => exact play_end (by simp [Instr.mnemonic]) (by simp +contextual [Instr.wellFormed, playFieldsFit]) h
  | playLinear => exact play_end (by simp [Instr.mnemonic]) (by simp +contextual [Instr.wellFormed, playFieldsFit]) h
  | playCubic => exact play_end (by simp [Instr.mnemonic]) (by simp +contextual [Instr.wellFormed, playFieldsFit]) h
  | setsr sr w2 w3 =>
    rcases execSetsr_next h with ⟨hl, ht⟩ | ⟨hl, hv, ht⟩ | ⟨hl, hv, ht⟩
    · exact .notConstructed (by simp [Instr.mnemonic]) hl ht
    · exact .setsrDone sr w2 w3 rfl hl hv ht
    · exact .setsrFailed sr w2 w3 rfl hl hv ht
  | rdStatus => cases h; exact .statusRead rfl rfl
  | rdPhase w1 w2 w3 =>
    rcases readRegister_cases (.rdPhase w1 w2 w3) s.phase s with ⟨hl, he⟩ | ⟨-, he⟩ <;>
      rw [exec, execRdPhase, he] at h <;> cases h
    exact .phaseRead rfl hl rfl
  | rdSrrecip w1 w2 w3 =>
    rcases readRegister_cases (.rdSrrecip w1 w2 w3) s.srRecip s with ⟨hl, he⟩ | ⟨-, he⟩ <;>
      rw [exec, execRdSrrecip, he] at h <;> cases h
    exact .srRecipRead rfl hl rfl
  | clrst => cases h; exact .cleared rfl rfl
  | release =>
    rcases execRelease_next h with ⟨hl, ht⟩ | ⟨hl, ht⟩
    · exact .notConstructed (by simp [Instr.mnemonic]) hl ht
    · exact .destroyed rfl hl ht

end Sys2Proof.Machine
end

