-- ==== Sys2Proof/Laws/Memory.lean ====
section
/-! SUPPORT. TMEM's byte image: reads after writes, and every operation keeps the canonical form. -/

namespace Sys2Proof.Machine

variable {init : List Host.Cell}

theorem Memory.wf_nil : Memory.wf init [] := ⟨List.Pairwise.nil, fun _ h => nomatch h⟩

theorem Memory.wf_tail {c : Host.Cell} {m : List Host.Cell} (h : Memory.wf init (c :: m)) : Memory.wf init m :=
  ⟨(List.pairwise_cons.1 h.1).2, fun d hd => h.2 d (List.mem_cons_of_mem _ hd)⟩

theorem Memory.lt_of_wf_cons {c d : Host.Cell} {m : List Host.Cell} (h : Memory.wf init (c :: m)) (hd : d ∈ m) :
    c.1 < d.1 := (List.pairwise_cons.1 h.1).1 d hd

theorem Memory.readByte_of_lt {m : List Host.Cell} {a : Nat} (h : ∀ c ∈ m, a < c.1) :
    Memory.readByte init m a = Memory.unwritten init a := by
  induction m with
  | nil => rfl
  | cons c m ih =>
    have := h c (by simp)
    rw [Memory.readByte, if_neg (by omega)]
    exact ih fun d hd => h d (List.mem_cons_of_mem _ hd)

theorem Memory.mem_cons_imp {a : Nat} {v : Byte} {m : List Host.Cell} {c : Host.Cell}
    (h : c ∈ Memory.cons init a v m) : c = (a, v) ∨ c ∈ m := by
  unfold Memory.cons at h
  split at h
  · exact .inr h
  · simpa using h

/-- A cell of the written image is the written one or an old one. -/
theorem Memory.mem_writeByte {m : List Host.Cell} {a : Nat} {v : Byte} {c : Host.Cell}
    (h : c ∈ Memory.writeByte init m a v) : c = (a, v) ∨ c ∈ m := by
  induction m with
  | nil => exact Memory.mem_cons_imp h
  | cons d m ih =>
    rw [Memory.writeByte] at h
    split at h
    · exact Memory.mem_cons_imp h
    · split at h
      · rcases Memory.mem_cons_imp h with h | h
        · exact .inl h
        · exact .inr (List.mem_cons_of_mem _ h)
      · rcases List.mem_cons.1 h with h | h
        · exact .inr (by rw [h]; exact List.mem_cons_self ..)
        · rcases ih h with h | h
          · exact .inl h
          · exact .inr (List.mem_cons_of_mem _ h)

theorem Memory.wf_cons {a : Nat} {v : Byte} {m : List Host.Cell} (h : Memory.wf init m) (ha : ∀ c ∈ m, a < c.1) :
    Memory.wf init (Memory.cons init a v m) := by
  unfold Memory.cons
  split
  · exact h
  · rename_i hv
    refine ⟨List.pairwise_cons.2 ⟨ha, h.1⟩, ?_⟩
    intro c hc
    rcases List.mem_cons.1 hc with rfl | hc
    · exact hv
    · exact h.2 c hc

/-- Writing a byte keeps the canonical form. -/
theorem Memory.wf_writeByte {m : List Host.Cell} (h : Memory.wf init m) (a : Nat) (v : Byte) :
    Memory.wf init (Memory.writeByte init m a v) := by
  induction m with
  | nil => exact Memory.wf_cons h (by simp)
  | cons d m ih =>
    have ht := Memory.wf_tail h
    rw [Memory.writeByte]
    split
    · rename_i hlt
      refine Memory.wf_cons h ?_
      intro c hc
      rcases List.mem_cons.1 hc with rfl | hc
      · exact hlt
      · exact hlt.trans (Memory.lt_of_wf_cons h hc)
    · split
      · rename_i heq
        exact Memory.wf_cons ht fun c hc => by rw [heq]; exact Memory.lt_of_wf_cons h hc
      · rename_i hge hne
        have hw := ih ht
        refine ⟨List.pairwise_cons.2 ⟨?_, hw.1⟩, ?_⟩
        · intro c hc
          rcases Memory.mem_writeByte hc with rfl | hc
          · simp only; omega
          · exact Memory.lt_of_wf_cons h hc
        · intro c hc
          rcases List.mem_cons.1 hc with rfl | hc
          · exact h.2 _ (List.mem_cons_self ..)
          · exact hw.2 c hc

theorem Memory.readByte_cons {a b : Nat} {v : Byte} {m : List Host.Cell} (ha : ∀ c ∈ m, a < c.1) :
    Memory.readByte init (Memory.cons init a v m) b = if a = b then v else Memory.readByte init m b := by
  unfold Memory.cons
  split
  · rename_i hv
    split
    · rename_i hab
      rw [hv, ← hab, Memory.readByte_of_lt ha]
    · rfl
  · rw [Memory.readByte]

/-- A read after a write: the written byte at its address, every other byte as before. -/
theorem Memory.readByte_writeByte {m : List Host.Cell} (h : Memory.wf init m) (a b : Nat) (v : Byte) :
    Memory.readByte init (Memory.writeByte init m a v) b = if a = b then v else Memory.readByte init m b := by
  induction m with
  | nil => exact Memory.readByte_cons (by simp)
  | cons d m ih =>
    rw [Memory.writeByte]
    split
    · rename_i hlt
      refine Memory.readByte_cons ?_
      intro c hc
      rcases List.mem_cons.1 hc with rfl | hc
      · exact hlt
      · exact hlt.trans (Memory.lt_of_wf_cons h hc)
    · split
      · rename_i heq
        rw [Memory.readByte_cons fun c hc => by rw [heq]; exact Memory.lt_of_wf_cons h hc, Memory.readByte]
        split
        · rfl
        · rw [if_neg (by omega)]
      · rename_i hge hne
        rw [Memory.readByte, ih (Memory.wf_tail h), Memory.readByte]
        split
        · rw [if_neg (by omega)]
        · rfl

/-- Writing a word keeps the canonical form. -/
theorem Memory.wf_writeWord {m : List Host.Cell} (h : Memory.wf init m) (a : Nat) (w : Word) :
    Memory.wf init (Memory.writeWord init m a w) :=
  Memory.wf_writeByte (Memory.wf_writeByte (Memory.wf_writeByte (Memory.wf_writeByte h _ _) _ _) _ _) _ _

/-- A cell of the image after a word write lies in the word or was there before. -/
theorem Memory.mem_writeWord {m : List Host.Cell} {a : Nat} {w : Word} {c : Host.Cell}
    (h : c ∈ Memory.writeWord init m a w) : (4 * a ≤ c.1 ∧ c.1 < 4 * a + 4) ∨ c ∈ m := by
  rcases Memory.mem_writeByte h with rfl | h
  · exact .inl ⟨by simp, by simp⟩
  rcases Memory.mem_writeByte h with rfl | h
  · exact .inl ⟨by simp, by simp⟩
  rcases Memory.mem_writeByte h with rfl | h
  · exact .inl ⟨by simp, by simp⟩
  rcases Memory.mem_writeByte h with rfl | h
  · exact .inl ⟨by simp, by simp⟩
  exact .inr h

/-- One byte after a word write: byte `b - 4a` of the word inside it, as before outside it. -/
theorem Memory.readByte_writeWord {m : List Host.Cell} (h : Memory.wf init m) (a b : Nat) (w : Word) :
    Memory.readByte init (Memory.writeWord init m a w) b =
      if 4 * a ≤ b ∧ b < 4 * a + 4 then byteOf w (b - 4 * a) else Memory.readByte init m b := by
  have h0 := Memory.wf_writeByte h (4 * a) (byteOf w 0)
  have h1 := Memory.wf_writeByte h0 (4 * a + 1) (byteOf w 1)
  have h2 := Memory.wf_writeByte h1 (4 * a + 2) (byteOf w 2)
  rw [Memory.writeWord, Memory.readByte_writeByte h2, Memory.readByte_writeByte h1, Memory.readByte_writeByte h0,
    Memory.readByte_writeByte h]
  split
  · rename_i heq; subst heq; rw [if_pos (by omega)]; congr 1; omega
  split
  · rename_i heq; subst heq; rw [if_pos (by omega)]; congr 1; omega
  split
  · rename_i heq; subst heq; rw [if_pos (by omega)]; congr 1; omega
  split
  · rename_i heq; subst heq; rw [if_pos (by omega)]; congr 1; omega
  rw [if_neg (by omega)]

end Sys2Proof.Machine
end

