-- ==== Sys2Proof/Laws/PerInstr.lean ====
section
/-! SUPPORT. Statements about every instruction, made instruction by instruction. -/

namespace Sys2Proof.Laws

/-- The encoded command word of an instruction belongs to the row of the opcode map that has its mnemonic
(spec/30_encoding.md R68). -/
def RowMatch.Statement (i : Instr) : Prop :=
  ∃ r ∈ opcodeMap, r.mnemonic = i.mnemonic ∧ r.hit (encode i).cmd = true

theorem RowMatch.init (sr w2 w3 : Word) : RowMatch.Statement (.init sr w2 w3) :=
  ⟨⟨"INIT", 1#32, 0xFFFFFFFF#32⟩, by decide, rfl, by simp [OpcodeRow.hit, encode]⟩

/-- The low byte of a PLAY's command word does not depend on the length. -/
theorem play_low_byte (arg : BitVec 24) (op : BitVec 4) :
    (arg ++ 0#4 ++ op : Word) &&& 0x000000FF#32 = op.setWidth 32 := by
  apply BitVec.eq_of_getLsbD_eq
  intro i hi
  have hmask : (0x000000FF#32).getLsbD i = decide (i < 8) := by
    have : ∀ k : Fin 32, (0x000000FF#32).getLsbD k = decide (k.val < 8) := by decide
    exact this ⟨i, hi⟩
  simp only [BitVec.getLsbD_and, BitVec.getLsbD_append, hmask, BitVec.getLsbD_setWidth, BitVec.getLsbD_zero]
  by_cases h4 : i < 4
  · have : i < 8 := by omega
    simp [h4, this, hi]
  · by_cases h8 : i < 8
    · have : i - 4 < 4 := by omega
      simp [h4, this, hi, BitVec.getLsbD_of_ge _ _ (Nat.le_of_not_lt h4)]
    · simp [h8, hi, BitVec.getLsbD_of_ge _ _ (Nat.le_of_not_lt h4)]

theorem RowMatch.playFloor (len : Nat) (f o : Word) (tbase : Nat) :
    RowMatch.Statement (.playFloor len f o tbase) :=
  ⟨⟨"PLAY.FLOOR", 2#32, 0xFF#32⟩, by decide, rfl, by simp [OpcodeRow.hit, encode, playPacket, play_low_byte]⟩

theorem RowMatch.playLinear (len : Nat) (f o : Word) (tbase : Nat) :
    RowMatch.Statement (.playLinear len f o tbase) :=
  ⟨⟨"PLAY.LINEAR", 3#32, 0xFF#32⟩, by decide, rfl, by simp [OpcodeRow.hit, encode, playPacket, play_low_byte]⟩

theorem RowMatch.playCubic (len : Nat) (f o : Word) (tbase : Nat) :
    RowMatch.Statement (.playCubic len f o tbase) :=
  ⟨⟨"PLAY.CUBIC", 4#32, 0xFF#32⟩, by decide, rfl, by simp [OpcodeRow.hit, encode, playPacket, play_low_byte]⟩

theorem RowMatch.setsr (sr w2 w3 : Word) : RowMatch.Statement (.setsr sr w2 w3) :=
  ⟨⟨"SETSR", 5#32, 0xFFFFFFFF#32⟩, by decide, rfl, by simp [OpcodeRow.hit, encode]⟩

theorem RowMatch.rdStatus (w1 w2 w3 : Word) : RowMatch.Statement (.rdStatus w1 w2 w3) :=
  ⟨⟨"RD.STATUS", 6#32, 0xFFFFFFFF#32⟩, by decide, rfl, by simp [OpcodeRow.hit, encode]⟩

theorem RowMatch.rdPhase (w1 w2 w3 : Word) : RowMatch.Statement (.rdPhase w1 w2 w3) :=
  ⟨⟨"RD.PHASE", 0x106#32, 0xFFFFFFFF#32⟩, by decide, rfl, by simp [OpcodeRow.hit, encode]⟩

theorem RowMatch.rdSrrecip (w1 w2 w3 : Word) : RowMatch.Statement (.rdSrrecip w1 w2 w3) :=
  ⟨⟨"RD.SRRECIP", 0x206#32, 0xFFFFFFFF#32⟩, by decide, rfl, by simp [OpcodeRow.hit, encode]⟩

theorem RowMatch.clrst (w1 w2 w3 : Word) : RowMatch.Statement (.clrst w1 w2 w3) :=
  ⟨⟨"CLRST", 7#32, 0xFFFFFFFF#32⟩, by decide, rfl, by simp [OpcodeRow.hit, encode]⟩

theorem RowMatch.release (w1 w2 w3 : Word) : RowMatch.Statement (.release w1 w2 w3) :=
  ⟨⟨"RELEASE", 8#32, 0xFFFFFFFF#32⟩, by decide, rfl, by simp [OpcodeRow.hit, encode]⟩

end Sys2Proof.Laws
end

