-- ==== Sys2Proof/Laws/Step.lean ====
section
/-! SUPPORT. What a step can do: the one list of cases that statements about steps start from. -/

namespace Sys2Proof.Machine

/-- A packet runs its command, or is illegal and fails with cause 1. -/
theorem performPacket_cases (p : Packet) (s : State) :
    (∃ i, decode p = .ok i ∧ performPacket p s = exec i s) ∨
    (∃ e, decode p = .error e ∧ performPacket p s = .next (s.fail .illegal)) := by
  unfold performPacket illegalPacket
  cases h : decode p with
  | ok i => exact .inl ⟨i, rfl, rfl⟩
  | error e => exact .inr ⟨e, rfl, rfl⟩

/-- A host table write lands inside TMEM and faults outside it. -/
theorem hostTableWrite_cases (a : Nat) (w : Word) (s : State) :
    (a < s.tmemWords ∧ hostTableWrite a w s = .next { s.noResponse with mem := Memory.writeWord s.tmemInit s.mem a w }) ∨
    (s.tmemWords ≤ a ∧ hostTableWrite a w s = .fault (.tableWriteOutsideTmem a)) := by
  unfold hostTableWrite
  rcases Nat.lt_or_ge a s.tmemWords with h | h
  · exact .inl ⟨h, by simp [h]⟩
  · exact .inr ⟨h, by simp [Nat.not_lt.2 h]⟩

/-- The next states of a step, by the host's next interaction. -/
theorem step_next {s t : State} (h : step s = .next t) :
    s.faulted = none ∧
    ((s.inputs = [] ∧ t = s.noResponse) ∨
     (∃ p rest i, s.inputs = .command p :: rest ∧ decode p = .ok i ∧ exec i (s.setInputs rest) = .next t) ∨
     (∃ p rest e, s.inputs = .command p :: rest ∧ decode p = .error e ∧ t = (s.setInputs rest).fail .illegal) ∨
     (∃ a w rest, s.inputs = .tableWrite a w :: rest ∧ a < s.tmemWords ∧
        t = { (s.setInputs rest).noResponse with mem := Memory.writeWord s.tmemInit s.mem a w }) ∨
     (∃ cut rest, s.inputs = .reset cut :: rest ∧ t = (s.setInputs rest).resetRegisters)) := by
  unfold step at h
  cases hf : s.faulted with
  | some r => rw [hf] at h; cases h
  | none =>
    rw [hf] at h
    refine ⟨rfl, ?_⟩
    unfold stepPort at h
    cases hi : s.inputs with
    | nil => rw [hi] at h; cases h; exact .inl ⟨rfl, rfl⟩
    | cons input rest =>
      rw [hi] at h
      refine .inr ?_
      cases input with
      | command p =>
        rcases performPacket_cases p (s.setInputs rest) with ⟨i, hd, hp⟩ | ⟨e, hd, hp⟩
        · exact .inl ⟨p, rest, i, rfl, hd, hp ▸ h⟩
        · refine .inr (.inl ⟨p, rest, e, rfl, hd, ?_⟩)
          have : performPacket p (s.setInputs rest) = .next t := h
          rw [hp] at this; cases this; rfl
      | tableWrite a w =>
        refine .inr (.inr (.inl ?_))
        have hw : hostTableWrite a w (s.setInputs rest) = .next t := h
        rcases hostTableWrite_cases a w (s.setInputs rest) with ⟨ha, hp⟩ | ⟨-, hp⟩ <;> rw [hp] at hw
        · cases hw; exact ⟨a, w, rest, rfl, ha, rfl⟩
        · cases hw
      | reset cut =>
        cases h
        exact .inr (.inr (.inr ⟨cut, rest, rfl, rfl⟩))

/-- The first step of a run. -/
theorem run_succ {k : Nat} {s t : State} (h : step s = .next t) :
    Host.Core.run Sys2Proof.core (k + 1) s = Host.Core.run Sys2Proof.core k t := by
  have hs : Sys2Proof.core.step s = .next t := h
  simp only [Host.Core.run, hs]

end Sys2Proof.Machine
end

