-- ==== Sys2Proof/Tests/Slice0.lean ====
section
/-! SUPPORT. Tests on fixed values, and a state for the hypotheses of every obligation that has some. Expected
results are the vectors of spec/95_test_vectors.md (their names stand beside them), or are worked out by hand from
the encoding tables of spec/30_encoding.md. -/

namespace Sys2Proof.Tests

open Sys2Proof Sys2Proof.Machine

/-! ## Well-formedness: each check refuses an ill-formed term -/

theorem test_floor_length_of_25_bits_refused : (Instr.playFloor (2 ^ 24) 0 0 0).wellFormed = false := by decide
theorem test_linear_length_of_25_bits_refused : (Instr.playLinear (2 ^ 24) 0 0 0).wellFormed = false := by decide
theorem test_cubic_length_of_25_bits_refused : (Instr.playCubic (2 ^ 24) 0 0 0).wellFormed = false := by decide
theorem test_floor_base_of_33_bits_refused : (Instr.playFloor 1 0 0 (2 ^ 32)).wellFormed = false := by decide
theorem test_linear_base_of_33_bits_refused : (Instr.playLinear 1 0 0 (2 ^ 32)).wellFormed = false := by decide
theorem test_cubic_base_of_33_bits_refused : (Instr.playCubic 1 0 0 (2 ^ 32)).wellFormed = false := by decide

/-! ## Decoding: words written out from the opcode map (R61, R65, R66, R68, R69) -/

theorem test_decode_init :
    decode ⟨0x00000001#32, 0x41800000#32, 2#32, 3#32⟩ = .ok (.init 0x41800000#32 2#32 3#32) := by decide
theorem test_decode_play_floor :
    decode ⟨0x00000802#32, 0x3F800000#32, 0x3E800000#32, 9#32⟩ = .ok (.playFloor 8 0x3F800000#32 0x3E800000#32 9) := by
  decide
theorem test_decode_play_linear :
    decode ⟨0xFFFFFF03#32, 1#32, 2#32, 0xFFFFFFFF#32⟩ = .ok (.playLinear 16777215 1#32 2#32 4294967295) := by decide
theorem test_decode_play_cubic :
    decode ⟨0x00000404#32, 0x40000000#32, 0x3E800000#32, 8#32⟩ = .ok (.playCubic 4 0x40000000#32 0x3E800000#32 8) := by
  decide
theorem test_decode_setsr : decode ⟨0x00000005#32, 7#32, 8#32, 9#32⟩ = .ok (.setsr 7#32 8#32 9#32) := by decide
theorem test_decode_rd_status : decode ⟨0x00000006#32, 1#32, 2#32, 3#32⟩ = .ok (.rdStatus 1#32 2#32 3#32) := by decide
theorem test_decode_rd_phase : decode ⟨0x00000106#32, 1#32, 2#32, 3#32⟩ = .ok (.rdPhase 1#32 2#32 3#32) := by decide
theorem test_decode_rd_srrecip : decode ⟨0x00000206#32, 1#32, 2#32, 3#32⟩ = .ok (.rdSrrecip 1#32 2#32 3#32) := by
  decide
theorem test_decode_clrst : decode ⟨0x00000007#32, 1#32, 2#32, 3#32⟩ = .ok (.clrst 1#32 2#32 3#32) := by decide
theorem test_decode_release : decode ⟨0x00000008#32, 1#32, 2#32, 3#32⟩ = .ok (.release 1#32 2#32 3#32) := by decide

/-- The illegal words of vector table 4.5. -/
theorem test_illegal_words :
    [0x00000000#32, 0x00000009#32, 0x0000000F#32, 0x00000010#32, 0x00000080#32, 0x000008F2#32, 0x00000101#32,
      0x00000105#32, 0x00000107#32, 0x00000108#32, 0x00000306#32, 0x00000406#32].map
      (fun cmd => match decode ⟨cmd, 0x3F800000#32, 0#32, 0#32⟩ with
        | .ok _ => none
        | .error e => some e)
    = [some .reservedOp, some .reservedOp, some .reservedOp, some .mbzNotZero, some .mbzNotZero, some .mbzNotZero,
      some .argNotZero, some .argNotZero, some .argNotZero, some .argNotZero, some .reservedSelect,
      some .selectArgNotZero] := by decide

/-- The host's numbering: the second word of a packet is bits 63 to 32. -/
theorem test_table_word_layout :
    decodeTableWord 64 0x4180000000000001 = some (.init 0x41800000#32 0#32 0#32) := by decide

/-! ## One step of each command -/

/-- TMEM holding the given words from address 0. -/
def image (words : List Word) : List Host.Cell :=
  (words.zipIdx).foldl (fun m c => Memory.writeWord [] m c.2 c.1) []

/-- Table A of the vectors. -/
def tableA : List Word :=
  [0x00000000#32, 0x3F000000#32, 0x3F800000#32, 0x3F000000#32, 0x00000000#32, 0xBF000000#32, 0xBF800000#32,
    0xBF000000#32]

/-- Table B of the vectors, here at word 0. -/
def tableB : List Word := [0x3F800000#32, 0x40000000#32, 0x40800000#32, 0x41000000#32]

/-- A finite and an infinite entry: table E of the vectors, here at word 0. -/
def tableE : List Word := [0x3F800000#32, 0x7F800000#32]

/-- The state of the vectors: READY after `init 16.0`, sixteen words of TMEM. -/
def ready (phase : Word) (words : List Word) : State :=
  { State.reset with
    phase := phase, srRecip := 0x3D800000#32, lifecycle := .ready, mem := image words, tmemInit := [], tmemTop := 15#32 }

/-- The state after RELEASE. -/
def released : State := { ready 0#32 [] with lifecycle := .released }

/-- One step that performs the packet: the response, PHASE and STATUS after it; none where it is no next state. -/
def after (s : State) (c x y z : Word) : Option (Option Response × Word × Word) :=
  match step { s with inputs := [.command ⟨c, x, y, z⟩] } with
  | .next t => some (t.response, t.phase, t.statusWord)
  | .fault _ => none
  | .refused _ => none

/-- F4: backward play wraps below 0. -/
theorem test_play_floor_backward :
    after (ready 0#32 tableA) 0x802#32 0xBF800000#32 0#32 0#32 = some (some ⟨0#32, 0#4⟩, 0x40F00000#32, 1#32) := by
  decide
/-- F12: an infinite entry gives +0.0 and cause 7, and the phase advances. -/
theorem test_play_floor_infinite_entry :
    after (ready 0x3F800000#32 tableE) 0x202#32 0x3F800000#32 0#32 0#32
      = some (some ⟨0#32, 7#4⟩, 0x3F900000#32, 0x00070401#32) := by decide
/-- L2: the second point wraps to entry 0, and the phase to +0.0. -/
theorem test_play_linear_wraps :
    after (ready 0x40F00000#32 tableA) 0x803#32 0x3F800000#32 0#32 0#32
      = some (some ⟨0xBE800000#32, 0#4⟩, 0#32, 1#32) := by decide
/-- F9, as PLAY.LINEAR (program P5 step 4): the increment overflows. -/
theorem test_play_linear_numeric :
    after (ready 0x3E800000#32 tableA) 0x803#32 0x7F61B1E6#32 0#32 0#32
      = some (some ⟨0#32, 6#4⟩, 0x3E800000#32, 0x00060201#32) := by decide
/-- C2: the example of R92. -/
theorem test_play_cubic :
    after (ready 0x3FC00000#32 tableB) 0x404#32 0x3F800000#32 0#32 0#32
      = some (some ⟨0x40340000#32, 0#4⟩, 0x3FE00000#32, 1#32) := by decide
/-- C4: both points above the read position wrap. -/
theorem test_play_cubic_wraps :
    after (ready 0x40600000#32 tableB) 0x404#32 0x3F800000#32 0#32 0#32
      = some (some ⟨0x40960000#32, 0#4⟩, 0x40700000#32, 1#32) := by decide
/-- Table 4.1: 1/3 is inexact. -/
theorem test_init_rounds :
    (match execInit 0x40400000#32 0#32 0#32 State.reset with
      | .next t => some (t.srRecip, t.lifecycle)
      | _ => none) = some (0x3EAAAAAB#32, .ready) := by decide
/-- Table 4.1: the largest invalid rate. -/
theorem test_init_invalid :
    after State.reset 1#32 0x00200000#32 0#32 0#32 = some (some ⟨0#32, 3#4⟩, 0#32, 0x00030040#32) := by decide
/-- Table 4.2, the first row: PHASE is kept. -/
theorem test_setsr :
    (match execSetsr 0x41000000#32 0#32 0#32 (ready 0x3F800000#32 []) with
      | .next t => some (t.srRecip, t.phase)
      | _ => none) = some (0x3E000000#32, 0x3F800000#32) := by decide
/-- Table 4.2: SETSR in UNINIT. -/
theorem test_setsr_uninit :
    after State.reset 5#32 0x41000000#32 0#32 0#32 = some (some ⟨0#32, 2#4⟩, 0#32, 0x00020020#32) := by decide
/-- Program P4 step 7: the flags and the cause that RD.STATUS reads. -/
theorem test_rd_status :
    after { ready 0#32 [] with flags := 0x1F#7, lastCause := 1#4 } 6#32 0#32 0#32 0#32
      = some (some ⟨0x000101F1#32, 0#4⟩, 0#32, 0x000101F1#32) := by decide
theorem test_rd_phase :
    after (ready 0x3FE00000#32 []) 0x106#32 0#32 0#32 0#32
      = some (some ⟨0x3FE00000#32, 0#4⟩, 0x3FE00000#32, 1#32) := by decide
theorem test_rd_srrecip :
    after (ready 0#32 []) 0x206#32 0#32 0#32 0#32 = some (some ⟨0x3D800000#32, 0#4⟩, 0#32, 1#32) := by decide
/-- Table 4.4, the first row. -/
theorem test_clrst :
    after { ready 0#32 [] with flags := 0x1F#7, lastCause := 1#4 } 7#32 0#32 0#32 0#32
      = some (some ⟨0#32, 0#4⟩, 0#32, 1#32) := by decide
/-- Table 4.4: RELEASE in READY, and a second one. -/
theorem test_release : after (ready 0#32 []) 8#32 0#32 0#32 0#32 = some (some ⟨0#32, 0#4⟩, 0#32, 2#32) := by decide
theorem test_release_twice_stops : after released 8#32 0#32 0#32 0#32 = none := by decide
/-- Table 4.4: illegal words stay defined in RELEASED. -/
theorem test_illegal_in_released :
    after released 9#32 0#32 0#32 0#32 = some (some ⟨0#32, 1#4⟩, 0#32, 0x00010012#32) := by decide
/-- The host's fetch word runs as the first packet after reset: F15. -/
theorem test_fetch_word :
    (match step (State.reset.withFetchWord 32 0x802) with
      | .next t => some (t.response, t.statusWord)
      | _ => none) = some (some ⟨0#32, 2#4⟩, 0x00020020#32) := by decide

/-! ## Assembler: the examples after R75 -/

theorem test_assemble_init :
    assembleLine "  init 16.0 ; a rate".toList = .ok (some (.instr (.init 0x41800000#32 0#32 0#32))) := by decide
theorem test_assemble_play_cubic :
    assembleLine "play.cubic 4, 2.0, 0.25, 8".toList
      = .ok (some (.instr (.playCubic 4 0x40000000#32 0x3E800000#32 8))) := by decide
theorem test_assemble_bits :
    assembleLine "setsr f32:0x3C088889".toList = .ok (some (.instr (.setsr 0x3C088889#32 0#32 0#32))) := by decide
theorem test_assemble_raw :
    assembleLine ".illegal 0x00000009, 0, 0, 0".toList = .ok (some (.raw ⟨9#32, 0#32, 0#32, 0#32⟩)) := by decide
theorem test_inexact_literal_refused : assembleLine "init 0.1".toList = .error .notExact := by decide

/-! ## A state or an input for the hypotheses of each obligation -/

theorem witness_EncodedInstructionDecodesBack :
    (Instr.playFloor 16777215 0 0 4294967295).wellFormed = true ∧ (Instr.init 0 0 0).wellFormed = true := by decide

theorem witness_LegalPacketIsItsInstructionsPacket :
    decode ⟨0xFFFFFF04#32, 0#32, 0#32, 0xFFFFFFFF#32⟩ = .ok (.playCubic 16777215 0#32 0#32 4294967295) ∧
    decode ⟨0x00000206#32, 0#32, 0#32, 1#32⟩ = .ok (.rdSrrecip 0#32 0#32 1#32) := by decide

theorem witness_DecodeReturnsTheUniqueMatchingRow :
    (∃ r ∈ opcodeMap, r.hit 0xFFFFFF02#32 = true) ∧
    decode ⟨0xFFFFFF02#32, 0#32, 0#32, 0#32⟩ = .ok (.playFloor 16777215 0#32 0#32 0) ∧
    (∃ r ∈ opcodeMap, r.hit 0x00000008#32 = true) ∧ decode ⟨8#32, 0#32, 0#32, 0#32⟩ = .ok (.release 0#32 0#32 0#32) :=
  by decide

theorem witness_LengthFieldIsTheTableLength :
    (0x00000002#32).toNat % 256 = 2 ∧ (0xFFFFFF03#32).toNat % 256 = 3 ∧ (0xFFFFFF04#32).toNat % 256 = 4 ∧
    (ready 0#32 []).lifecycle = .ready := by decide

theorem witness_IllegalWordsFailWithCauseOneAndNoOtherEffect :
    { released with inputs := [.command ⟨0x00000406#32, 0#32, 0#32, 0#32⟩] }.faulted = none ∧
    decode ⟨0x00000406#32, 0#32, 0#32, 0#32⟩ = .error .selectArgNotZero := by decide

/-- RELEASED is shut out only for the four commands that record their packet there. -/
theorem witness_IgnoredWordsHaveNoEffect :
    (ready 0#32 []).lifecycle ≠ .released ∧
    exec (.rdStatus 1#32 2#32 3#32) released = .next { released with response := some ⟨2#32, 0#4⟩ } :=
  ⟨by decide, rfl⟩

theorem witness_StepRunsTheDecodedInstruction :
    { ready 0#32 tableA with inputs := [.command ⟨0x802#32, 0#32, 0#32, 0#32⟩, .reset none] }.faulted = none ∧
    decode ⟨0x802#32, 0#32, 0#32, 0#32⟩ = .ok (.playFloor 8 0#32 0#32 0) := by decide

theorem witness_PlacedWordIsTheNextInstruction :
    State.reset.faulted = none ∧ decodeTableWord 32 0x00000106 = some (.rdPhase 0#32 0#32 0#32) := by decide

theorem witness_IdleBlockHoldsItsState : State.reset.faulted = none ∧ State.reset.inputs = [] := by decide

theorem witness_EveryPacketIsAnsweredOnce :
    step { State.reset with inputs := [.command ⟨7#32, 0#32, 0#32, 0#32⟩] }
      = .next { State.reset with response := some ⟨0#32, 0#4⟩ } ∧
    decode ⟨7#32, 0#32, 0#32, 0#32⟩ = .ok (.clrst 0#32 0#32 0#32) ∧
    step { State.reset with inputs := [.command ⟨0#32, 0#32, 0#32, 0#32⟩] }
      = .next { State.reset with flags := 1#7, lastCause := 1#4, response := some ⟨0#32, 1#4⟩ } :=
  ⟨rfl, by decide, rfl⟩

theorem witness_HostTableWriteStoresOneWord :
    { ready 0#32 tableB with inputs := [.tableWrite 15 0x3F800000#32] }.faulted = none ∧
    Memory.wf [] (ready 0#32 tableB).mem ∧ 15 < (ready 0#32 tableB).tmemWords := by decide

theorem witness_ByteImageIsLittleEndian :
    (ready 0#32 tableB).memRead 3 = 0x41000000#32 ∧ (ready 0#32 tableB).memByte 15 = 0x41#8 ∧ 3 < 4 ∧
    { ready 0#32 tableB with tmemInit := [(16, 0x80#8)] }.memRead 4 = 0x00000080#32 := by decide

theorem witness_ResetWinsOverTheCommandInProgress :
    { ready 0#32 tableB with inputs := [.reset (some ⟨8#32, 0#32, 0#32, 0#32⟩)] }.faulted = none ∧
    { ready 0#32 tableB with inputs := [.reset none] }.faulted = none := by decide

theorem witness_InitStoresTheNearestReciprocalOrLeavesNoEngine :
    (0x00200000 < (0x00200001#32).toNat ∧ (0x00200001#32).toNat < 0x7F800000) ∧
    (0x00200000 < (0x7F7FFFFF#32).toNat ∧ (0x7F7FFFFF#32).toNat < 0x7F800000) ∧
    (0x00200000#32).toNat ≤ 0x00200000 ∧ 0x7F800000 ≤ (0x7F800000#32).toNat := by decide

theorem witness_ValidRatesAreThoseAboveTwoToTheMinus128 :
    validSr 0x00200001#32 = true ∧ validSr 0x00200000#32 = false := by decide

theorem witness_SetsrChangesTheReciprocalAlone :
    (ready 0#32 []).lifecycle = .ready ∧ 0x00200000 < (0x00200001#32).toNat ∧ (0x00200001#32).toNat < 0x7F800000 ∧
    (0x00200000#32).toNat ≤ 0x00200000 ∧ 0x7F800000 ≤ (0x7F800000#32).toNat ∧ State.reset.lifecycle = .uninit := by
  decide

theorem witness_RegisterReadsAnswerTheRegisters :
    (ready 0#32 []).lifecycle ≠ .released ∧ State.reset.lifecycle ≠ .released := by decide

theorem witness_ReleaseDestroysTheEngine :
    (ready 0#32 []).lifecycle = .ready ∧ State.reset.lifecycle = .uninit := by decide

/-- The operands of C2 pass the checks of a PLAY. -/
theorem passesC2 :
    PlayPasses 4 0x3F800000#32 0#32 0 (ready 0x3FC00000#32 tableB) (phaseIncrement 4 0x3F800000#32 0x3D800000#32)
      (phaseOffset 4 0#32) (fadd (f32 0x3FC00000#32) (phaseOffset 4 0#32))
      (fadd (f32 0x3FC00000#32) (phaseIncrement 4 0x3F800000#32 0x3D800000#32)) where
  isReady := by decide
  lenPos := by decide
  lenFits := by decide
  tableFits := by decide
  incIs := by decide
  offIs := by decide
  sumIs := by decide
  nextIs := by decide
  incFinite := by decide
  offFinite := by decide
  sumFinite := by decide
  nextFinite := by decide

theorem witness_PlayFloorAnswersTheStoredEntry :
    ∃ inc off sum next, PlayPasses 4 0x3F800000#32 0#32 0 (ready 0x3FC00000#32 tableB) inc off sum next :=
  ⟨_, _, _, _, passesC2⟩

/-- A -0.0 entry before a negative one: at fr = 0 the operations of R85 and R86 give -0.0 (log 20). -/
def fallingTable : List Word := [0x80000000#32, 0xBF800000#32]

/-- A PLAY at phase +0.0 of the falling table passes its checks. -/
theorem passesFalling :
    PlayPasses 2 0x3F800000#32 0#32 0 (ready 0#32 fallingTable) (phaseIncrement 2 0x3F800000#32 0x3D800000#32)
      (phaseOffset 2 0#32) (fadd (f32 0#32) (phaseOffset 2 0#32))
      (fadd (f32 0#32) (phaseIncrement 2 0x3F800000#32 0x3D800000#32)) where
  isReady := by decide
  lenPos := by decide
  lenFits := by decide
  tableFits := by decide
  incIs := by decide
  offIs := by decide
  sumIs := by decide
  nextIs := by decide
  incFinite := by decide
  offFinite := by decide
  sumFinite := by decide
  nextFinite := by decide

/-- The sample at phase +0.0 of the falling table. -/
def fallingSample (i : Instr) : Option Response :=
  match exec i (ready 0#32 fallingTable) with
  | .next t => t.response
  | .fault _ => none
  | .refused _ => none

theorem witness_PlayLinearAnswersTheLineThroughTwoEntries :
    (∃ inc off sum next, PlayPasses 4 0x3F800000#32 0#32 0 (ready 0x3FC00000#32 tableB) inc off sum next) ∧
    (∃ inc off sum next, PlayPasses 2 0x3F800000#32 0#32 0 (ready 0#32 fallingTable) inc off sum next ∧
      frac (wrap sum.units 2) = .finite false 0 ∧ ifloor (wrap sum.units 2) = 0) ∧
    f32 ((ready 0#32 fallingTable).memRead 0) = .finite true 0 ∧
    fadd (f32 0x80000000#32) (fmul (f32 0#32) (fsub (f32 0xBF800000#32) (f32 0x80000000#32))) = .finite true 0 ∧
    fallingSample (.playLinear 2 0x3F800000#32 0#32 0) = some ⟨0x00000000#32, 0#4⟩ :=
  ⟨⟨_, _, _, _, passesC2⟩, ⟨_, _, _, _, passesFalling, by decide, by decide⟩, by decide, by decide, by decide⟩

theorem witness_PlayCubicAnswersTheCatmullRomValue :
    (∃ inc off sum next, PlayPasses 4 0x3F800000#32 0#32 0 (ready 0x3FC00000#32 tableB) inc off sum next) ∧
    (∃ inc off sum next, PlayPasses 2 0x3F800000#32 0#32 0 (ready 0#32 fallingTable) inc off sum next ∧
      frac (wrap sum.units 2) = .finite false 0 ∧ ifloor (wrap sum.units 2) = 0) ∧
    f32 ((ready 0#32 fallingTable).memRead 0) = .finite true 0 ∧
    (catmullRom (f32 0#32) (f32 0x80000000#32) (f32 0xBF800000#32) (f32 0#32) (f32 0#32)).isFinite = true ∧
    fallingSample (.playCubic 2 0x3F800000#32 0#32 0) = some ⟨0x00000000#32, 0#4⟩ :=
  ⟨⟨_, _, _, _, passesC2⟩, ⟨_, _, _, _, passesFalling, by decide, by decide⟩, by decide, by decide, by decide⟩

/-- The operands of X5: backward by less than one unit in the last place of the length. -/
theorem passesX5 :
    PlayPasses 8 0xB1000000#32 0#32 0 (ready 0#32 tableA) (phaseIncrement 8 0xB1000000#32 0x3D800000#32)
      (phaseOffset 8 0#32) (fadd (f32 0#32) (phaseOffset 8 0#32))
      (fadd (f32 0#32) (phaseIncrement 8 0xB1000000#32 0x3D800000#32)) where
  isReady := by decide
  lenPos := by decide
  lenFits := by decide
  tableFits := by decide
  incIs := by decide
  offIs := by decide
  sumIs := by decide
  nextIs := by decide
  incFinite := by decide
  offFinite := by decide
  sumFinite := by decide
  nextFinite := by decide

/-- n = 1.75; a negative n; and a remainder that rounds up to the length, so that PHASE is +0.0 (X5). -/
theorem witness_PhaseAdvancesModuloTheLength :
    (∃ inc off sum next, PlayPasses 4 0x3F800000#32 0#32 0 (ready 0x3FC00000#32 tableB) inc off sum next ∧
      0 ≤ next.units) ∧
    (∃ inc off sum next, PlayPasses 8 0xB1000000#32 0#32 0 (ready 0#32 tableA) inc off sum next ∧
      next.units < 0 ∧ rnd false (next.units % (8 * unitsPerOne : Nat)).toNat 1 = ofInt 8 ∧
      wrap next.units 8 = .finite false 0) :=
  ⟨⟨_, _, _, _, passesC2, by decide⟩, ⟨_, _, _, _, passesX5, by decide, by decide, by decide⟩⟩

theorem witness_PlayReportsTheFirstFailingCheck :
    State.reset.lifecycle = .uninit ∧ (ready 0#32 []).lifecycle = .ready ∧ (ready 0#32 []).tmemWords < 9 + 8 := by
  decide

theorem witness_NonFinitePhaseArithmeticFailsWithCauseSix :
    (ready 0#32 []).lifecycle = .ready ∧ 8 + 8 ≤ (ready 0#32 []).tmemWords ∧
    (fmul (fmul (f32 0x7F61B1E6#32) (ofInt 8)) (f32 0x3D800000#32)).isFinite = false ∧
    (0x7F800000#32).extractLsb' 23 8 = 255#8 ∧ (fmul (f32 0x7F61B1E6#32) (ofInt 8)).isFinite = false ∧
    (fadd (f32 0x7F7FFFFF#32) (f32 0x7F7FFFFF#32)).isFinite = false := by decide

theorem witness_CommittedPhaseIsBelowTheLength :
    (match exec (.playFloor 2 0x3F800000#32 0#32 0) (ready 0x3F800000#32 tableE),
        exec (.playFloor 2 0x3F800000#32 0#32 0) (ready 0#32 tableE) with
      | .next t, .next u => some (t.response, u.response)
      | _, _ => none) = some (some ⟨0#32, 7#4⟩, some ⟨0x3F800000#32, 0#4⟩) := by decide

theorem witness_NoNanOrInfinityLeavesThePlay :
    (match exec (.playCubic 2 0x3F800000#32 0#32 0) (ready 0#32 tableE) with
      | .next t => t.response
      | _ => none) = some ⟨0#32, 7#4⟩ := by decide

theorem witness_PlayWritesOnlyPhaseAndStatus :
    (match exec (.playLinear 0 0#32 0#32 0) (ready 0#32 []), exec (.playLinear 1 0#32 0#32 0) (ready 0#32 []) with
      | .next t, .next u => some (t.response, u.response)
      | _, _ => none) = some (some ⟨0#32, 4#4⟩, some ⟨0#32, 0#4⟩) := by decide

/-- Two contents of TMEM that agree on the words C2 reads, and the last table that fits. -/
theorem witness_PlayReadsOnlyTheEntriesOfItsKind :
    (match exec (.playCubic 4 0x3F800000#32 0#32 0) (ready 0x3FC00000#32 tableB) with
      | .next t => t.response
      | _ => none) = some ⟨0x40340000#32, 0#4⟩ ∧
    (∀ k ∈ [(-1 : Int), 0, 1, 2],
      { ready 0x3FC00000#32 tableB with mem := image (tableB ++ [1#32]), tmemInit := [(40, 1#8)] }.memRead
          (playAddress 4 0#32 0 (ready 0x3FC00000#32 tableB) k)
        = (ready 0x3FC00000#32 tableB).memRead (playAddress 4 0#32 0 (ready 0x3FC00000#32 tableB) k)) ∧
    4 < 2 ^ 24 ∧ 0 < 4 ∧ 12 + 4 ≤ (ready 0x3FC00000#32 tableB).tmemWords := by decide

theorem witness_ZeroFrequencyRepeatsTheSample :
    (ready 0x40400000#32 tableA).registersLegal ∧
    (match exec (.playFloor 8 0x80000000#32 0#32 0) (ready 0x40400000#32 tableA) with
      | .next t =>
        match exec (.playFloor 8 0x80000000#32 0#32 0) t with
        | .next u =>
          match exec (.playFloor 8 0x80000000#32 0#32 0) u with
          | .next v => some (t.phase, u.response, v.response)
          | _ => none
        | _ => none
      | _ => none) = some (0x40400000#32, some ⟨0x3F000000#32, 0#4⟩, some ⟨0x3F000000#32, 0#4⟩) ∧
    (f32 (ready 0x40400000#32 tableA).phase).units < (8 : Nat) * (unitsPerOne : Nat) := by
  unfold State.registersLegal
  decide

/-- Position 2 of table A, whose entry is not -0.0, and position 0 of the falling table, whose entry is. -/
theorem witness_KindsAgreeAtIntegerPositions :
    (ready 0x40000000#32 tableA).lifecycle ≠ .released ∧
    frac (wrap (fadd (f32 0x40000000#32) (fmul (f32 0#32) (ofInt 8))).units 8) = .finite false 0 ∧
    2 = ifloor (wrap (fadd (f32 0x40000000#32) (fmul (f32 0#32) (ofInt 8))).units 8) ∧
    (ready 0x40000000#32 tableA).memRead (0 + 2) = 0x3F800000#32 ∧ (f32 0x3F800000#32).isFinite = true ∧
    (match exec (.playFloor 8 0#32 0#32 0) (ready 0x40000000#32 tableA) with
      | .next t => t.response
      | _ => none) = some ⟨0x3F800000#32, 0#4⟩ ∧
    (fsub (f32 0x3F000000#32) (f32 0x3F800000#32)).isFinite = true ∧
    (fmul (f32 0x3F000000#32) (fsub (f32 0x3F000000#32) (f32 0x3F000000#32))).isFinite = true ∧
    (fsub (fadd (fsub (f32 0x3F000000#32) (fmul (f32 0x40200000#32) (f32 0x3F800000#32)))
      (fmul (f32 0x40000000#32) (f32 0x3F000000#32))) (fmul (f32 0x3F000000#32) (f32 0#32))).isFinite = true ∧
    (fadd (fmul (f32 0x3F000000#32) (fsub (f32 0#32) (f32 0x3F000000#32)))
      (fmul (f32 0x3FC00000#32) (fsub (f32 0x3F800000#32) (f32 0x3F000000#32)))).isFinite = true ∧
    (fsub (f32 0xBF800000#32) (f32 0x80000000#32)).isFinite = true ∧
    fallingSample (.playFloor 2 0x3F800000#32 0#32 0) = some ⟨0x80000000#32, 0#4⟩ := by decide

theorem witness_PatternsDenoteTheirValues :
    (0x80000001#32).toNat / 2 ^ 23 % 2 ^ 8 = 0 ∧ (0x00800000#32).toNat / 2 ^ 23 % 2 ^ 8 = 1 ∧
    (0x7F7FFFFF#32).toNat / 2 ^ 23 % 2 ^ 8 = 254 ∧ (0xFF800000#32).toNat / 2 ^ 23 % 2 ^ 8 = 255 ∧
    (0xFF800000#32).toNat % 2 ^ 23 = 0 ∧ (0x7FC00000#32).toNat / 2 ^ 23 % 2 ^ 8 = 255 ∧
    (0x7FC00000#32).toNat % 2 ^ 23 ≠ 0 := by decide

/-- 7.875 in a table of 8. -/
theorem witness_PositionsSplitExactly :
    f32 0x40FC0000#32 = .finite false (63 * 2 ^ 146) ∧ 63 * 2 ^ 146 < 8 * unitsPerOne ∧ 16777216 ≤ 2 ^ 24 := by decide

/-- The greatest whole magnitude that does not overflow, and a tie. -/
theorem witness_RoundingIsToNearestTiesToEven :
    (2 ^ 25 - 1) * 2 ^ 252 - 1 < 1 * ((2 ^ 25 - 1) * 2 ^ 252) ∧ f32 0x7F7FFFFF#32 = .finite false ((2 ^ 24 - 1) * 2 ^ 253) ∧
    f32 1#32 = .finite false 1 ∧ rnd false 1 2 = .finite false 0 ∧ rnd false 3 2 = .finite false 2 := by decide

/-- A tiny operand, zeros of both signs, an overflow and a quotient. -/
theorem witness_SumsAndProductsAreRoundedOnce :
    f32 0x80000000#32 = .finite true 0 ∧ f32 0x00000001#32 = .finite false 1 ∧
    (f32 0x80000000#32).units + (f32 0x00000000#32).units = 0 ∧
    (f32 0x80000000#32).units - (f32 0x80000000#32).units = 0 ∧
    f32 0x7F7FFFFF#32 = .finite false ((2 ^ 24 - 1) * 2 ^ 253) ∧
    fadd (f32 0x7F7FFFFF#32) (f32 0x7F7FFFFF#32) = .inf false ∧
    fdiv (f32 0x00000001#32) (f32 0x7F7FFFFF#32) = .finite false 0 := by decide

theorem witness_NonFiniteValuesPropagate : (Val.inf true).isFinite = false ∧ Val.nan.isFinite = false := by decide

theorem witness_WrapOfANonNegativeValueIsExact :
    0 < 16777215 ∧ 16777215 < 2 ^ 24 ∧ f32 0x7F7FFFFF#32 = .finite false ((2 ^ 24 - 1) * 2 ^ 253) := by decide

theorem witness_FailuresAreRecordedInStatus :
    (match exec (.release 0#32 0#32 0#32) State.reset, exec (.release 0#32 0#32 0#32) (ready 0#32 []) with
      | .next t, .next u => some (t.response, u.response)
      | _, _ => none) = some (some ⟨0#32, 2#4⟩, some ⟨0#32, 0#4⟩) ∧
    (Instr.clrst 0#32 0#32 0#32).mnemonic = "CLRST" ∧
    (match exec (.playFloor 2 0#32 0#32 0) (ready 0x3F800000#32 tableE) with
      | .next t => t.response
      | _ => none) = some ⟨0#32, 7#4⟩ := by decide

theorem witness_CausesAndFaultsOfEachCommand :
    exec (.clrst 0#32 0#32 0#32) State.reset = .next { State.reset with response := some ⟨0#32, 0#4⟩ } ∧
    exec (.release 0#32 0#32 0#32) released
      = .fault (.useAfterRelease { released with faulted := some ⟨.useAfterRelease, ⟨8#32, 0#32, 0#32, 0#32⟩⟩ }) :=
  ⟨rfl, rfl⟩

theorem witness_UseAfterReleaseFaultsWithThePacketRecorded :
    released.faulted = none ∧ released.lifecycle = .released ∧
    definedInReleased ⟨0x106#32, 0#32, 0#32, 0#32⟩ = false ∧ definedInReleased ⟨6#32, 0#32, 0#32, 0#32⟩ = true := by
  decide

theorem witness_RecordedFaultIsNeverCleared :
    { released with faulted := some ⟨.useAfterRelease, ⟨8#32, 0#32, 0#32, 0#32⟩⟩ }.faulted
      = some ⟨.useAfterRelease, ⟨8#32, 0#32, 0#32, 0#32⟩⟩ ∧
    step State.reset = .next State.reset := ⟨rfl, rfl⟩

theorem witness_OnlyTheHostWritesTmem :
    exec (.clrst 0#32 0#32 0#32) State.reset = .next { State.reset with response := some ⟨0#32, 0#4⟩ } ∧
    step State.reset = .next State.reset ∧ ∀ a w rest, State.reset.inputs ≠ .tableWrite a w :: rest :=
  ⟨rfl, rfl, fun _ _ _ h => nomatch h⟩

theorem witness_RegistersAreWrittenOnlyByTheirWriters :
    exec (.clrst 0#32 0#32 0#32) State.reset = .next { State.reset with response := some ⟨0#32, 0#4⟩ } ∧
    (Instr.clrst 0#32 0#32 0#32).mnemonic
      ∉ ["INIT", "SETSR", "RELEASE", "PLAY.FLOOR", "PLAY.LINEAR", "PLAY.CUBIC"] := ⟨rfl, by decide⟩

theorem witness_StateFollowsTheLifecycle :
    step { ready 0#32 [] with inputs := [.command ⟨8#32, 0#32, 0#32, 0#32⟩] }
      = .next { ready 0#32 [] with lifecycle := .released, response := some ⟨0#32, 0#4⟩ } ∧
    step State.reset = .next State.reset := ⟨rfl, rfl⟩

theorem witness_EveryStepKeepsTheRegistersLegal :
    State.reset.registersLegal ∧ (ready 0x3FC00000#32 []).registersLegal ∧ step State.reset = .next State.reset := by
  unfold State.registersLegal
  exact ⟨by decide, by decide, rfl⟩

theorem witness_EveryStepKeepsTheStatusConsistent :
    State.reset.statusConsistent ∧ { State.reset with flags := 0x40#7, lastCause := 7#4 }.statusConsistent ∧
    step State.reset = .next State.reset := by
  unfold State.statusConsistent
  exact ⟨by decide, by decide, rfl⟩

theorem witness_EveryStepKeepsTmemLegal :
    (ready 0#32 tableB).memLegal ∧
    step (ready 0#32 tableB) = .next (ready 0#32 tableB) := by
  unfold State.memLegal
  exact ⟨by decide, rfl⟩

theorem witness_RegisterReadsNeverAnswerANan :
    (ready 0x7F7FFFFF#32 []).registersLegal ∧
    (match exec (.rdPhase 0#32 0#32 0#32) (ready 0x7F7FFFFF#32 []) with
      | .next t => t.response
      | _ => none) = some ⟨0x7F7FFFFF#32, 0#4⟩ := by
  unfold State.registersLegal
  decide

/-- A dutiful list: RELEASE, then RD.STATUS, then the last word of TMEM, then reset. -/
theorem witness_ADutifulHostNeverMeetsAFault :
    dutifulScript 16 .ready [.command ⟨8#32, 0#32, 0#32, 0#32⟩, .command ⟨6#32, 0#32, 0#32, 0#32⟩,
      .tableWrite 15 1#32, .reset none] = true ∧
    (ready 0#32 []).tmemWords = 16 ∧ (ready 0#32 []).faulted = none := by decide

theorem witness_AssembledCommandsDecodeBack :
    assembleLine "rd.phase".toList = .ok (some (.instr (.rdPhase 0#32 0#32 0#32))) ∧
    trimBlank (withoutComment " init  1.0;".toList) = "init  1.0".toList ∧
    operandsOf "  1.0".toList = ["1.0".toList] ∧ parseNumber "1.0".toList = .ok 0x3F800000#32 ∧
    operandsOf " 8, 1.0,0.0 , 9".toList = ["8".toList, "1.0".toList, "0.0".toList, "9".toList] ∧
    operandsOf [] = [] := by decide

/-- The operands of `play.floor 16777215, -0.5, f32:0x7FC00000, 0xFFFFFFFF ; end`. -/
theorem witness_WrittenLinesAssembleToTheirCommands :
    (∀ ch ∈ "16777215".toList ++ "-0.5".toList ++ "f32:0x7FC00000".toList ++ "0xFFFFFFFF".toList,
      ch ≠ ' ' ∧ ch ≠ '\t' ∧ ch ≠ ',' ∧ ch ≠ ';') ∧
    parseInteger (2 ^ 24) "16777215".toList = .ok 16777215 ∧ parseNumber "-0.5".toList = .ok 0xBF000000#32 ∧
    parseNumber "f32:0x7FC00000".toList = .ok 0x7FC00000#32 ∧
    parseInteger (2 ^ 32) "0xFFFFFFFF".toList = .ok 4294967295 ∧ "; end".toList.head? = some ';' :=
  ⟨by simp, by decide, by decide, by decide, by decide, by decide⟩

/-- `-0.5` is exact, `0.1` is not. -/
theorem witness_DecimalLiteralsAreNeverRounded :
    "-0.5".toList = (if true then ['-'] else []) ++ [0].map Nat.digitChar ++ '.' :: [5].map Nat.digitChar ∧
    Nat.ofDigits 10 ([0] ++ [5]).reverse = 5 ∧ parseNumber "-0.5".toList = .ok 0xBF000000#32 ∧
    f32 0xBF000000#32 = .finite true (2 ^ 148) ∧ 2 ^ 148 * 10 = 5 * unitsPerOne ∧
    parseNumber "0.1".toList = .error .notExact := by decide

end Sys2Proof.Tests
end

/-! PROOFS. Binary32 arithmetic (spec/00_scope.md R11 to R16) and TMEM at reset (R8). -/

namespace Sys2Proof.Machine

/-! ### The fields of a pattern (R11) -/

theorem getLsbD_31_eq_decide (w : Word) : w.getLsbD 31 = decide (2 ^ 31 ≤ w.toNat) := by
  rw [← BitVec.msb_eq_getLsbD_last (w := 32) w, BitVec.msb_eq_decide]

theorem exponent_toNat (w : Word) : (w.extractLsb' 23 8).toNat = w.toNat / 2 ^ 23 % 2 ^ 8 := by
  rw [BitVec.extractLsb'_toNat, Nat.shiftRight_eq_div_pow]

theorem fraction_toNat (w : Word) : (w.extractLsb' 0 23).toNat = w.toNat % 2 ^ 23 := by
  rw [BitVec.extractLsb'_toNat, Nat.shiftRight_zero]

/-- A pattern whose exponent field is not 255 is finite. -/
theorem f32_isFinite_of_exponent {w : Word} (h : w.toNat / 2 ^ 23 % 2 ^ 8 ≠ 255) : (f32 w).isFinite = true := by
  refine (f32_isFinite_iff w).2 fun h255 => h ?_
  rw [← exponent_toNat, h255]
  rfl

/-- Settles O36: the four branches of `f32`, with the fields written as quotients and remainders. -/
theorem patternsDenoteTheirValues : Obligations.PatternsDenoteTheirValues := by
  rintro w e m neg rfl he rfl
  have hw : f32 w = if e = 255 then (if w.toNat % 2 ^ 23 = 0 then .inf (decide (2 ^ 31 ≤ w.toNat)) else .nan)
      else if e = 0 then .finite (decide (2 ^ 31 ≤ w.toNat)) (w.toNat % 2 ^ 23)
      else .finite (decide (2 ^ 31 ≤ w.toNat)) ((2 ^ 23 + w.toNat % 2 ^ 23) * 2 ^ (e - 1)) := by
    rw [he, ← exponent_toNat, ← fraction_toNat, ← getLsbD_31_eq_decide]
    rfl
  refine ⟨fun h0 => ?_, fun h1 h254 => ?_, fun h255 hm => ?_, fun h255 hm => ?_, fun hne => ?_⟩
  · rw [hw, if_neg (by omega), if_pos h0]
  · rw [hw, if_neg (by omega), if_neg (by omega)]
  · rw [hw, if_pos h255, if_pos hm]
  · rw [hw, if_pos h255, if_neg hm]
  · have hfin := f32_isFinite_of_exponent (he ▸ hne)
    exact ⟨hfin, bits_f32 hfin⟩

/-! ### Magnitudes under remainder (R15, R16) -/

/-- The remainder by a whole number keeps a magnitude representable: it is a multiple of the quantum of the
magnitude or of the unit of the whole number, whichever is less. -/
theorem IsMag.mod_ofInt {m len : Nat} (h : IsMag m) (hpos : 0 < len) (hlen : len < 2 ^ 24) :
    IsMag (m % (len * unitsPerOne)) := by
  obtain ⟨hexp, hdvd⟩ := h
  rcases Nat.le_total (quantumExp m) 149 with hle | hge
  · have hq : quantumExp (m % (len * unitsPerOne)) ≤ quantumExp m := quantumExp_mono (Nat.mod_le _ _)
    have hlenDvd : 2 ^ quantumExp m ∣ len * unitsPerOne := Dvd.dvd.mul_left (Nat.pow_dvd_pow 2 hle) len
    exact ⟨hq.trans hexp, (Nat.pow_dvd_pow 2 hq).trans ((Nat.dvd_mod_iff hlenDvd).2 hdvd)⟩
  · have hunits : unitsPerOne ∣ 2 ^ quantumExp m := Nat.pow_dvd_pow 2 hge
    obtain ⟨k, rfl⟩ := hunits.trans hdvd
    rw [mul_comm len, Nat.mul_mod_mul_left, mul_comm unitsPerOne]
    exact isMag_ofInt ((Nat.mod_lt k hpos).trans hlen)

/-- A length is representable up to and including 2^24 (R16). -/
theorem isMag_ofInt_of_le {n : Nat} (h : n ≤ 2 ^ 24) : IsMag (n * unitsPerOne) := by
  rcases Nat.lt_or_eq_of_le h with hlt | rfl
  · exact isMag_ofInt hlt
  · have hsplit : 2 ^ 24 * unitsPerOne = 2 ^ 23 * 2 ^ 150 := by decide
    rw [hsplit]
    exact isMag_mul (by decide) (by decide)

theorem ifloor_finite_false (m : Nat) : ifloor (.finite false m) = m / unitsPerOne := rfl

theorem frac_finite_false (m : Nat) : frac (.finite false m) = .finite false (m % unitsPerOne) := rfl

/-- Settles O37: quotient and remainder by the unit, both representable. -/
theorem positionsSplitExactly : Obligations.PositionsSplitExactly := by
  refine ⟨fun w len m hw hlt => ?_, fun n hn => ?_⟩
  · have hfrac : IsMag (m % unitsPerOne) := by
      simpa using (f32_finite_isMag hw).mod_ofInt (len := 1) (by decide) (by decide)
    rw [hw]
    exact ⟨ifloor_lt hlt, (Val.finite false (m % unitsPerOne)).bits, m % unitsPerOne, frac_finite_false m,
      f32_bits hfrac, Nat.mod_lt m unitsPerOne_pos, by rw [ifloor_finite_false, Nat.div_add_mod']⟩
  · exact ⟨(ofInt n).bits, f32_bits (isMag_ofInt_of_le hn), by simp [ofInt, Val.units]⟩

/-- Settles O41: the remainder is representable, so that rounding keeps it, and below the length. -/
theorem wrapOfANonNegativeValueIsExact : Obligations.WrapOfANonNegativeValueIsExact := by
  intro w len m hpos hlen hw
  have hmod : IsMag (m % (len * unitsPerOne)) := (f32_finite_isMag hw).mod_ofInt hpos hlen
  have hlt : m % (len * unitsPerOne) < len * unitsPerOne := Nat.mod_lt m (Nat.mul_pos hpos unitsPerOne_pos)
  have hr : ((f32 w).units % ((len * unitsPerOne : Nat) : Int)).toNat = m % (len * unitsPerOne) := by
    rw [hw]
    exact Int.toNat_natCast _
  have hne : Val.finite false (m % (len * unitsPerOne)) ≠ ofInt len := by
    simpa [ofInt] using hlt.ne
  simp only [wrap, hr, rnd_exact_one hmod, if_neg hne]

/-! ### Rounding to the nearest integer (R12) -/

/-- `nearestEven` is at most half away from the quotient, and even where it is exactly half away. -/
theorem nearestEven_within_half (num : Nat) {den : Nat} (hd : 0 < den) :
    2 * (nearestEven num den * den) ≤ 2 * num + den ∧ 2 * num ≤ 2 * (nearestEven num den * den) + den ∧
    (2 * (nearestEven num den * den) = 2 * num + den ∨ 2 * num = 2 * (nearestEven num den * den) + den →
      nearestEven num den % 2 = 0) := by
  have hdiv : num / den * den + num % den = num := Nat.div_add_mod' num den
  have hmod : num % den < den := Nat.mod_lt num hd
  have hsucc : (num / den + 1) * den = num / den * den + den := Nat.succ_mul ..
  simp only [nearestEven]
  split
  · rw [hsucc]; omega
  · split
    · rw [hsucc]; omega
    · omega

/-- No multiple of the divisor is nearer than the one `nearestEven` takes; of two equally near, it takes an even
one. -/
theorem nearestEven_nearest (num t : Nat) {den : Nat} (hd : 0 < den) :
    |((nearestEven num den * den : Nat) : Int) - num| ≤ |((t * den : Nat) : Int) - num| ∧
    (|((nearestEven num den * den : Nat) : Int) - num| = |((t * den : Nat) : Int) - num| → t ≠ nearestEven num den →
      nearestEven num den % 2 = 0) := by
  obtain ⟨hlo, hhi, htie⟩ := nearestEven_within_half num hd
  simp only [Int.abs_eq_natAbs]
  rcases Nat.lt_trichotomy t (nearestEven num den) with hlt | rfl | hgt
  · have hstep : t * den + den ≤ nearestEven num den * den := by
      rw [← Nat.succ_mul]; exact Nat.mul_le_mul_right den hlt
    omega
  · exact ⟨le_rfl, fun _ hne => absurd rfl hne⟩
  · have hstep : nearestEven num den * den + den ≤ t * den := by
      rw [← Nat.succ_mul]; exact Nat.mul_le_mul_right den hgt
    omega

/-- Where the significand carries out of its 24 bits: from half a quantum below 2^24 on, the tie included, as
2^24 - 1 is odd. -/
theorem nearestEven_eq_two_pow_24_iff {num den : Nat} (hd : 0 < den) (hlt : num < 2 ^ 24 * den) :
    nearestEven num den = 2 ^ 24 ↔ (2 ^ 25 - 1) * den ≤ 2 * num := by
  obtain ⟨hlo, hhi, htie⟩ := nearestEven_within_half num hd
  have hle : nearestEven num den ≤ 2 ^ 24 := nearestEven_le hd hlt.le
  constructor
  · intro heq
    rw [heq] at hlo
    omega
  · intro hbig
    by_contra hne
    have hmul : nearestEven num den * den ≤ (2 ^ 24 - 1) * den := Nat.mul_le_mul_right den (by omega)
    have heven : nearestEven num den % 2 = 0 := htie (.inr (by omega))
    have hmul' : nearestEven num den * den ≤ (2 ^ 24 - 2) * den := Nat.mul_le_mul_right den (by omega)
    omega

/-! ### Overflow of `rnd` (R12) -/

theorem rnd_eq_inf_iff_sig (neg : Bool) (num den : Nat) :
    rnd neg num den = .inf neg ↔ 253 < quantumExp (num / den) ∨
      (quantumExp (num / den) = 253 ∧ nearestEven num (den * 2 ^ quantumExp (num / den)) = 2 ^ 24) := by
  unfold rnd
  dsimp only
  split
  · exact iff_of_true rfl (.inl ‹_›)
  · split
    · exact iff_of_true rfl (.inr ‹_›)
    · exact iff_of_false (fun h => by cases h) (not_or.2 ⟨‹_›, ‹_›⟩)

/-- The overflow bound is half a quantum of the greatest exponent below 2^24 quanta. -/
theorem overflow_bound_eq (den : Nat) : 2 * (den * ((2 ^ 25 - 1) * 2 ^ 252)) = (2 ^ 25 - 1) * (den * 2 ^ 253) := by
  rw [show (2 : Nat) ^ 253 = 2 * 2 ^ 252 from Nat.pow_succ']
  generalize (2 : Nat) ^ 252 = u
  ring

/-- `rnd` overflows exactly from 2^128 - 2^103 on. -/
theorem rnd_eq_inf_iff (neg : Bool) (num : Nat) {den : Nat} (hd : 0 < den) :
    rnd neg num den = .inf neg ↔ den * ((2 ^ 25 - 1) * 2 ^ 252) ≤ num := by
  have hquantum := lt_quantum (num := num) hd
  rw [rnd_eq_inf_iff_sig]
  rcases Nat.lt_trichotomy (quantumExp (num / den)) 253 with hlt | heq | hgt
  · have hpow : 2 ^ quantumExp (num / den) ≤ 2 ^ 252 := Nat.pow_le_pow_right (by decide) (by omega)
    have hbelow : num < den * ((2 ^ 25 - 1) * 2 ^ 252) := calc
      num < 2 ^ 24 * (den * 2 ^ quantumExp (num / den)) := hquantum
      _ ≤ 2 ^ 24 * (den * 2 ^ 252) := Nat.mul_le_mul_left _ (Nat.mul_le_mul_left den hpow)
      _ ≤ (2 ^ 25 - 1) * (den * 2 ^ 252) := Nat.mul_le_mul_right _ (by decide)
      _ = den * ((2 ^ 25 - 1) * 2 ^ 252) := Nat.mul_left_comm ..
    omega
  · have hbound := overflow_bound_eq den
    rw [heq] at hquantum ⊢
    rw [nearestEven_eq_two_pow_24_iff (by positivity) hquantum]
    omega
  · have hexp : 25 + 252 ≤ quantumExp (num / den) + 23 := by omega
    have hq : 2 ^ 25 * 2 ^ 252 ≤ num / den := by
      rw [← pow_add]
      exact le_trans (pow_le_pow_right₀ (by decide) hexp) (two_pow_le_of_quantumExp_pos (by omega))
    have habove : den * ((2 ^ 25 - 1) * 2 ^ 252) ≤ num := calc
      den * ((2 ^ 25 - 1) * 2 ^ 252) ≤ den * (2 ^ 25 * 2 ^ 252) :=
        Nat.mul_le_mul_left den (Nat.mul_le_mul_right _ (Nat.sub_le _ _))
      _ ≤ den * (num / den) := Nat.mul_le_mul_left den hq
      _ ≤ num := Nat.mul_div_le num den
    exact ⟨fun _ => habove, fun _ => .inl hgt⟩

/-- The magnitude `rnd` answers where it does not overflow: `rnd_eq_finite`. -/
def roundedMag (num den : Nat) : Nat :=
  nearestEven num (den * 2 ^ quantumExp (num / den)) * 2 ^ quantumExp (num / den)

theorem rnd_eq_finite (neg : Bool) {num den : Nat} (hd : 0 < den) (h : num < den * ((2 ^ 25 - 1) * 2 ^ 252)) :
    rnd neg num den = .finite neg (roundedMag num den) := by
  have hsig := (rnd_eq_inf_iff_sig neg num den).not.1 fun hinf =>
    absurd ((rnd_eq_inf_iff neg num hd).1 hinf) (Nat.not_le.2 h)
  obtain ⟨hexp, hcarry⟩ := not_or.1 hsig
  simp only [rnd, if_neg hexp, if_neg hcarry, roundedMag]

theorem isMag_roundedMag {num den : Nat} (hd : 0 < den) (h : num < den * ((2 ^ 25 - 1) * 2 ^ 252)) :
    IsMag (roundedMag num den) := by
  have hrep := rnd_rep false num hd
  rwa [rnd_eq_finite false hd h] at hrep

/-! ### `rnd` takes the nearest binary32 value, ties to the even pattern (R12) -/

/-- Among the multiples of the quantum there is one as near as any representable magnitude, and it is nearer than
one that is not a multiple itself: the latter lies below the binade of the exact value. -/
theorem exists_quantum_multiple_as_near {num den k : Nat} (hd : 0 < den) (hk : IsMag k) :
    ∃ t, |((t * (den * 2 ^ quantumExp (num / den)) : Nat) : Int) - num| ≤ |((k * den : Nat) : Int) - num| ∧
      (|((t * (den * 2 ^ quantumExp (num / den)) : Nat) : Int) - num| = |((k * den : Nat) : Int) - num| →
        k = t * 2 ^ quantumExp (num / den)) := by
  rcases le_or_gt (quantumExp (num / den)) (quantumExp k) with hle | hlt
  · obtain ⟨t, ht⟩ := (Nat.pow_dvd_pow 2 hle).trans hk.2
    have hkt : k = t * 2 ^ quantumExp (num / den) := by rw [ht, mul_comm]
    have hsame : t * (den * 2 ^ quantumExp (num / den)) = k * den := by rw [hkt]; ring
    exact ⟨t, by rw [hsame], fun _ => hkt⟩
  · have hklt : k < 2 ^ (quantumExp (num / den) + 23) :=
      (lt_two_pow_quantumExp k).trans_le (Nat.pow_le_pow_right (by decide) (by omega))
    have hbinade : 2 ^ (quantumExp (num / den) + 23) * den ≤ num :=
      (Nat.le_div_iff_mul_le hd).1 (two_pow_le_of_quantumExp_pos (by omega))
    have hkden : k * den < 2 ^ (quantumExp (num / den) + 23) * den := Nat.mul_lt_mul_of_pos_right hklt hd
    have hlow : 2 ^ 23 * (den * 2 ^ quantumExp (num / den)) = 2 ^ (quantumExp (num / den) + 23) * den := by
      rw [pow_add]; ring
    refine ⟨2 ^ 23, ?_⟩
    rw [hlow]
    simp only [Int.abs_eq_natAbs]
    omega

/-- The pattern of a magnitude is even where its significand is, carry into the next binade included. -/
theorem magPattern_even {sig e : Nat} (hle : sig ≤ 2 ^ 24) (hnormal : e = 0 ∨ 2 ^ 23 ≤ sig) (heven : sig % 2 = 0) :
    magPattern (sig * 2 ^ e) % 2 = 0 := by
  rcases Nat.lt_or_eq_of_le hle with hlt | rfl
  · have hq : quantumExp (sig * 2 ^ e) = e := by
      rcases hnormal with rfl | hge
      · simpa using quantumExp_of_lt hlt
      · refine quantumExp_eq ?_ ?_
        · rw [pow_add, mul_comm]; exact Nat.mul_le_mul_right _ hge
        · rw [pow_add, mul_comm]; exact Nat.mul_lt_mul_of_pos_left hlt (by positivity)
    rw [magPattern, hq, Nat.mul_div_cancel _ (by positivity)]
    omega
  · have hcarry : 2 ^ 24 * 2 ^ e = 2 ^ 23 * 2 ^ (e + 1) := by ring
    have hq : quantumExp (2 ^ 23 * 2 ^ (e + 1)) = e + 1 := by
      refine quantumExp_eq ?_ ?_
      · rw [pow_add, mul_comm]
      · rw [pow_add _ _ 24, mul_comm]
        exact Nat.mul_lt_mul_of_pos_left (by decide) (by positivity)
    rw [hcarry, magPattern, hq, Nat.mul_div_cancel _ (by positivity)]
    omega

theorem magPattern_roundedMag_even {num den : Nat} (hd : 0 < den)
    (heven : nearestEven num (den * 2 ^ quantumExp (num / den)) % 2 = 0) :
    magPattern (roundedMag num den) % 2 = 0 := by
  refine magPattern_even (nearestEven_le (by positivity) (lt_quantum hd).le) ?_ heven
  rcases Nat.eq_zero_or_pos (quantumExp (num / den)) with h0 | hpos
  · exact .inl h0
  · have hbinade : 2 ^ (quantumExp (num / den) + 23) * den ≤ num :=
      (Nat.le_div_iff_mul_le hd).1 (two_pow_le_of_quantumExp_pos hpos)
    refine .inr (le_nearestEven (by positivity) (le_trans (le_of_eq ?_) hbinade))
    rw [pow_add]; ring

/-- No representable magnitude is nearer than the rounded one; where another is as near, the rounded one has the
even pattern. -/
theorem roundedMag_nearest {num den k : Nat} (hd : 0 < den) (hk : IsMag k) :
    |(roundedMag num den * den : Int) - num| ≤ |(k * den : Int) - num| ∧
    (|(roundedMag num den * den : Int) - num| = |(k * den : Int) - num| → k ≠ roundedMag num den →
      magPattern (roundedMag num den) % 2 = 0) := by
  obtain ⟨t, hnear, hmultiple⟩ := exists_quantum_multiple_as_near (num := num) hd hk
  obtain ⟨hbest, htie⟩ :=
    nearestEven_nearest num t (den := den * 2 ^ quantumExp (num / den)) (by positivity)
  have hmag : (roundedMag num den * den : Int) =
      ((nearestEven num (den * 2 ^ quantumExp (num / den)) * (den * 2 ^ quantumExp (num / den)) : Nat) : Int) := by
    rw [roundedMag]; push_cast; ring
  rw [hmag, ← Nat.cast_mul k den]
  refine ⟨hbest.trans hnear, fun heq hne => magPattern_roundedMag_even hd (htie ?_ ?_)⟩
  · exact le_antisymm hbest (hnear.trans heq.ge)
  · rintro rfl
    exact hne (hmultiple (le_antisymm hnear (heq.ge.trans hbest)))

theorem bits_getLsbD_0_of_even {neg : Bool} {m : Nat} (hm : IsMag m) (h : magPattern m % 2 = 0) :
    (Val.finite neg m).bits.getLsbD 0 = false := by
  rw [BitVec.getLsbD, Nat.testBit_zero, bits_toNat hm, decide_eq_false_iff_not]
  omega

/-- Settles O38: the overflow bound of `rnd_eq_inf_iff`, and below it the nearest representable magnitude. -/
theorem roundingIsToNearestTiesToEven : Obligations.RoundingIsToNearestTiesToEven := by
  intro neg num den hd
  refine ⟨rnd_eq_inf_iff neg num hd, fun hbelow => ?_⟩
  have hm := isMag_roundedMag hd hbelow
  refine ⟨roundedMag num den, _, rnd_eq_finite neg hd hbelow, rfl, f32_bits hm, fun x sign k hx => ?_⟩
  obtain ⟨hnear, htie⟩ := roundedMag_nearest (num := num) hd (f32_finite_isMag hx)
  exact ⟨hnear, fun heq hne => bits_getLsbD_0_of_even hm (htie heq hne)⟩

/-! ### One rounding per operation (R12, R13) -/

theorem units_finite_natAbs (neg : Bool) (m : Nat) : (Val.finite neg m).units.natAbs = m := by
  cases neg <;> simp [Val.units]

theorem units_fneg (v : Val) : (fneg v).units = -v.units := by
  cases v with
  | finite neg m => cases neg <;> simp [fneg, Val.units]
  | inf neg => rfl
  | nan => rfl

theorem exists_finite_of_isFinite {v : Val} (h : v.isFinite = true) : ∃ neg m, v = .finite neg m := by
  cases v with
  | finite neg m => exact ⟨neg, m, rfl⟩
  | inf neg => cases h
  | nan => cases h

theorem roundedMag_zero {den : Nat} (hd : 0 < den) : roundedMag 0 den = 0 := by
  simp [roundedMag, nearestEven, hd.ne']

/-- A rounded magnitude under the sign of the exact value is as far from it as the magnitudes are apart. -/
theorem abs_signed_roundedMag_sub {num : Int} {den : Nat} {neg : Bool} (hd : 0 < den)
    (hsign : num ≠ 0 → neg = decide (num < 0)) :
    |(Val.finite neg (roundedMag num.natAbs den)).units * den - num| =
      |(roundedMag num.natAbs den * den : Int) - num.natAbs| := by
  rcases lt_trichotomy num 0 with hlt | rfl | hgt
  · obtain rfl : neg = true := by simpa [hlt] using hsign hlt.ne
    rw [abs_sub_comm, Int.ofNat_natAbs_of_nonpos hlt.le]
    simp only [Val.units, if_true]
    congr 1; ring
  · cases neg <;> simp [Val.units, roundedMag_zero hd]
  · obtain rfl : neg = false := (hsign hgt.ne').trans (decide_eq_false hgt.le.not_gt)
    rw [Int.natAbs_of_nonneg hgt.le]
    rfl

/-- The opposite of the rounded value is as near only when the two are equal. -/
theorem units_eq_zero_of_neg_as_near {v num : Int} {den : Nat} (hd : 0 < den) (hzero : num = 0 → v = 0)
    (h : |v * den - num| = |-v * den - num|) : v = 0 := by
  by_contra hv
  have hnum : num ≠ 0 := fun h0 => hv (hzero h0)
  have hprod : v * den * num = 0 := by
    have hsq := (sq_eq_sq_iff_abs_eq_abs _ _).2 h
    linarith [hsq, sq (v * den - num), sq (-v * den - num)]
  have hden : (den : Int) ≠ 0 := by exact_mod_cast hd.ne'
  exact mul_ne_zero (mul_ne_zero hv hden) hnum hprod

/-- No finite pattern's value is nearer to the exact value than the rounded magnitude under its sign. -/
theorem signed_roundedMag_nearest {num : Int} {den : Nat} {neg : Bool} (hd : 0 < den)
    (hsign : num ≠ 0 → neg = decide (num < 0)) {c : Word} (hc : (f32 c).isFinite = true) :
    |(Val.finite neg (roundedMag num.natAbs den)).units * den - num| ≤ |(f32 c).units * den - num| ∧
    (|(Val.finite neg (roundedMag num.natAbs den)).units * den - num| = |(f32 c).units * den - num| →
      (f32 c).units ≠ (Val.finite neg (roundedMag num.natAbs den)).units →
      magPattern (roundedMag num.natAbs den) % 2 = 0) := by
  obtain ⟨sign, k, hck⟩ := exists_finite_of_isFinite hc
  obtain ⟨hnear, htie⟩ := roundedMag_nearest (num := num.natAbs) hd (f32_finite_isMag hck)
  have habs := abs_signed_roundedMag_sub hd hsign
  have hk : (f32 c).units.natAbs = k := by rw [hck, units_finite_natAbs]
  have htriangle : |(k * den : Int) - num.natAbs| ≤ |(f32 c).units * den - num| := calc
    |(k * den : Int) - num.natAbs| = |(|(f32 c).units * den| - |num|)| := by
      rw [abs_mul, Nat.abs_cast, Int.abs_eq_natAbs (f32 c).units, Int.abs_eq_natAbs num, hk]
    _ ≤ |(f32 c).units * den - num| := abs_abs_sub_abs_le _ _
  refine ⟨habs.trans_le (hnear.trans htriangle), fun heq hne => htie ?_ fun hsame => hne ?_⟩
  · exact le_antisymm hnear (htriangle.trans (heq.ge.trans habs.le))
  · rcases Int.natAbs_eq_natAbs_iff.1 (hk.trans (hsame.trans (units_finite_natAbs neg _).symm)) with h | h
    · exact h
    · have hzero : (Val.finite neg (roundedMag num.natAbs den)).units = 0 := by
        refine units_eq_zero_of_neg_as_near hd ?_ (h ▸ heq)
        rintro rfl
        rw [← Int.natAbs_eq_zero, units_finite_natAbs]
        exact roundedMag_zero hd
      rw [h, hzero, neg_zero]

/-- `rnd` of a magnitude, under the sign of the exact value, is the exact value rounded once. -/
theorem rnd_roundsOnce {neg : Bool} {num : Int} {den : Nat} (hd : 0 < den)
    (hsign : num ≠ 0 → neg = decide (num < 0)) : (rnd neg num.natAbs den).roundsOnce num den := by
  unfold Val.roundsOnce
  rw [Int.abs_eq_natAbs num, ← Nat.cast_mul, Nat.cast_lt]
  by_cases hbelow : num.natAbs < den * ((2 ^ 25 - 1) * 2 ^ 252)
  · have hm := isMag_roundedMag hd hbelow
    rw [rnd_eq_finite neg hd hbelow]
    refine ⟨iff_of_true rfl hbelow, fun h => absurd h Bool.noConfusion,
      fun _ => ⟨f32_bits hm, fun hne => ?_, fun c hc => ?_⟩⟩
    · rw [bits_finite, signed_getLsbD_31, hsign hne]
    · obtain ⟨hnear, htie⟩ := signed_roundedMag_nearest hd hsign hc
      exact ⟨hnear, fun heq hne => bits_getLsbD_0_of_even hm (htie heq hne)⟩
  · have hne : num ≠ 0 := by
      rintro rfl
      exact hbelow (Nat.mul_pos hd (by decide))
    rw [(rnd_eq_inf_iff neg num.natAbs hd).2 (Nat.not_lt.1 hbelow)]
    exact ⟨iff_of_false (fun h => by cases h) hbelow, fun _ => by rw [hsign hne], fun h => by cases h⟩

theorem rnd_zero (neg : Bool) {den : Nat} (hd : 0 < den) : rnd neg 0 den = .finite neg 0 := by
  simpa using rnd_exact (neg := neg) hd isMag_zero

/-- A sum of finite values is one `rnd`, also where it is zero. -/
theorem fadd_finite (x y : Bool) (j k : Nat) :
    fadd (.finite x j) (.finite y k) =
      rnd (if (Val.finite x j).units + (Val.finite y k).units = 0 then x && y
        else decide ((Val.finite x j).units + (Val.finite y k).units < 0))
        ((Val.finite x j).units + (Val.finite y k).units).natAbs 1 := by
  simp only [fadd]
  split
  · rename_i hzero
    rw [hzero]
    exact (rnd_zero (x && y) Nat.one_pos).symm
  · rfl

theorem fadd_finite_roundsOnce (x y : Bool) (j k : Nat) :
    (fadd (.finite x j) (.finite y k)).roundsOnce ((Val.finite x j).units + (Val.finite y k).units) 1 := by
  rw [fadd_finite]
  exact rnd_roundsOnce Nat.one_pos fun hne => if_neg hne

theorem fadd_finite_of_sum_zero {x y : Bool} {j k : Nat}
    (h : (Val.finite x j).units + (Val.finite y k).units = 0) :
    fadd (.finite x j) (.finite y k) = .finite (x && y) 0 := by
  simp only [fadd, if_pos h]

theorem units_finite_neg_iff {neg : Bool} {m : Nat} (h : m ≠ 0) : (Val.finite neg m).units < 0 ↔ neg = true := by
  cases neg
  · exact iff_of_false (Int.natCast_nonneg m).not_gt Bool.noConfusion
  · exact iff_of_true (Int.neg_neg_of_pos (by omega)) rfl

/-- `rnd` of a sign and an integral magnitude is the exact value of the two rounded once. -/
theorem rnd_units_roundsOnce (neg : Bool) (n : Nat) {den : Nat} (hd : 0 < den) :
    (rnd neg n den).roundsOnce (Val.finite neg n).units den := by
  have hrounds : (rnd neg (Val.finite neg n).units.natAbs den).roundsOnce (Val.finite neg n).units den := by
    refine rnd_roundsOnce hd fun hne => ?_
    have hn : n ≠ 0 := units_finite_natAbs neg n ▸ Int.natAbs_ne_zero.2 hne
    exact Bool.eq_iff_iff.2 ((units_finite_neg_iff hn).symm.trans decide_eq_true_iff.symm)
  rwa [units_finite_natAbs] at hrounds

theorem units_mul_units (x y : Bool) (j k : Nat) :
    (Val.finite x j).units * (Val.finite y k).units = (Val.finite (x != y) (j * k)).units := by
  cases x <;> cases y <;> simp [Val.units]

theorem fmul_finite_roundsOnce (x y : Bool) (j k : Nat) :
    (fmul (.finite x j) (.finite y k)).roundsOnce ((Val.finite x j).units * (Val.finite y k).units) unitsPerOne := by
  rw [units_mul_units]
  exact rnd_units_roundsOnce (x != y) (j * k) unitsPerOne_pos

theorem sign_mul_eq_units (x y : Bool) (n : Nat) :
    (if x = y then 1 else -1) * (n : Int) = (Val.finite (x != y) n).units := by
  cases x <;> cases y <;> simp [Val.units]

theorem fdiv_finite (x y : Bool) (j : Nat) {k : Nat} (hk : k ≠ 0) :
    fdiv (.finite x j) (.finite y k) = rnd (x != y) (j * unitsPerOne) k := if_neg hk

theorem fdiv_finite_roundsOnce (x y : Bool) (j : Nat) {k : Nat} (hk : k ≠ 0) :
    (fdiv (.finite x j) (.finite y k)).roundsOnce ((if x = y then 1 else -1) * (j * unitsPerOne : Nat)) k := by
  rw [fdiv_finite x y j hk, sign_mul_eq_units]
  exact rnd_units_roundsOnce (x != y) (j * unitsPerOne) (Nat.pos_of_ne_zero hk)

/-- Settles O39: each operation is one `rnd` of its exact result. -/
theorem sumsAndProductsAreRoundedOnce : Obligations.SumsAndProductsAreRoundedOnce := by
  intro a b x y j k ha hb
  rw [ha, hb]
  have hsub : (Val.finite x j).units - (Val.finite y k).units =
      (Val.finite x j).units + (Val.finite (!y) k).units := by
    rw [sub_eq_add_neg, ← units_fneg, fneg]
  refine ⟨fadd_finite_roundsOnce x y j k, ?_, fmul_finite_roundsOnce x y j k, fdiv_finite_roundsOnce x y j,
    fadd_finite_of_sum_zero, ?_, fun hzero => ?_, fun hj hk => ?_⟩
  · rw [hsub]
    exact fadd_finite_roundsOnce x (!y) j k
  · rw [hsub]
    exact fadd_finite_of_sum_zero
  · have hprod : j * k = 0 := Nat.mul_eq_zero.2 hzero
    simp only [fmul, hprod, rnd_zero _ unitsPerOne_pos]
  · rw [fdiv_finite x y j hk, hj, Nat.zero_mul, rnd_zero _ (Nat.pos_of_ne_zero hk)]

/-! ### Non-finite operands (R14) -/

theorem isFinite_fneg (v : Val) : (fneg v).isFinite = v.isFinite := by cases v <;> rfl

/-- A finite sum has finite operands. -/
theorem finite_operands_of_fadd {a b : Val} (h : (fadd a b).isFinite = true) :
    a.isFinite = true ∧ b.isFinite = true := by
  cases a with
  | nan => cases h
  | finite x j =>
    cases b with
    | finite y k => exact ⟨rfl, rfl⟩
    | inf y => cases h
    | nan => cases h
  | inf x =>
    cases b with
    | finite y k => cases h
    | inf y => simp only [fadd] at h; split at h <;> cases h
    | nan => cases h

/-- A finite product has finite operands. -/
theorem finite_operands_of_fmul {a b : Val} (h : (fmul a b).isFinite = true) :
    a.isFinite = true ∧ b.isFinite = true := by
  cases a with
  | nan => cases h
  | finite x j =>
    cases b with
    | finite y k => exact ⟨rfl, rfl⟩
    | inf y => simp only [fmul] at h; split at h <;> cases h
    | nan => cases h
  | inf x =>
    cases b with
    | finite y k => simp only [fmul] at h; split at h <;> cases h
    | inf y => cases h
    | nan => cases h

/-- A finite difference has finite operands. -/
theorem finite_operands_of_fsub {a b : Val} (h : (fsub a b).isFinite = true) :
    a.isFinite = true ∧ b.isFinite = true := isFinite_fneg b ▸ finite_operands_of_fadd h

/-- Settles O40: each operation answers a finite value for finite operands only. -/
theorem nonFiniteValuesPropagate : Obligations.NonFiniteValuesPropagate := by
  intro a b hab
  have hnot : ¬ (a.isFinite = true ∧ b.isFinite = true) := by
    rintro ⟨ha, hb⟩
    simp [ha, hb] at hab
  exact ⟨Bool.eq_false_iff.2 (hnot ∘ finite_operands_of_fadd), Bool.eq_false_iff.2 (hnot ∘ finite_operands_of_fsub),
    Bool.eq_false_iff.2 (hnot ∘ finite_operands_of_fmul)⟩

/-! ### TMEM at reset (R8, R152) -/

theorem reset_mem : State.reset.mem = [] := rfl

/-- With nothing written, every byte reads as TMEM_INIT has it. -/
theorem Memory.readByte_nil (init : List Host.Cell) (a : Nat) :
    Memory.readByte init [] a = Memory.unwritten init a := rfl

/-- Settles O55: at reset nothing of TMEM is written. -/
theorem resetTmemIsLegal : Obligations.ResetTmemIsLegal := by
  refine ⟨⟨?_, ?_⟩, fun a => ?_⟩
  · rw [reset_mem]
    exact Memory.wf_nil
  · rw [reset_mem]
    exact fun c hc => nomatch hc
  · rw [State.memByte, reset_mem]
    exact Memory.readByte_nil Config.tmemInit a

end Sys2Proof.Machine

/-! PROOFS. The registers, STATE and STATUS (spec/10_state.md): what a command writes and leaves, and what every
step keeps. -/

namespace Sys2Proof.Machine

/-! ### The commit of a PLAY (R87 to R89) -/

/-- A commit writes PHASE, STATUS and the response, nothing else. -/
theorem playCommit_frame (y : Val) (w : Word) (s : State) :
    playCommit y w s = { s with
      phase := w
      flags := (playCommit y w s).flags
      lastCause := (playCommit y w s).lastCause
      response := (playCommit y w s).response } := by
  rcases playCommit_cases y w s with ⟨-, h⟩ | ⟨-, h⟩ <;> rw [h] <;> rfl

@[simp] theorem playCommit_phase (y : Val) (w : Word) (s : State) : (playCommit y w s).phase = w := by
  rw [playCommit_frame]

@[simp] theorem playCommit_srRecip (y : Val) (w : Word) (s : State) : (playCommit y w s).srRecip = s.srRecip := by
  rw [playCommit_frame]

@[simp] theorem playCommit_lifecycle (y : Val) (w : Word) (s : State) :
    (playCommit y w s).lifecycle = s.lifecycle := by
  rw [playCommit_frame]

/-- The three PLAY commands are one procedure with different interpolators. -/
theorem exec_eq_play {len tbase : Nat} {f o : Word} {i : Instr}
    (hi : i ∈ [Instr.playFloor len f o tbase, .playLinear len f o tbase, .playCubic len f o tbase]) :
    ∃ interp, ∀ s, exec i s = play interp i len f o tbase s := by
  simp only [List.mem_cons, List.not_mem_nil, or_false] at hi
  rcases hi with rfl | rfl | rfl
  · exact ⟨interpFloor, fun _ => rfl⟩
  · exact ⟨interpLinear, fun _ => rfl⟩
  · exact ⟨interpCubic, fun _ => rfl⟩

/-- A PLAY that answers cause 0 or 7 has passed its checks and committed a wrapped phase. -/
theorem play_commits_of_cause {interp : (Nat → Val) → Nat → Nat → Val → Val} {i : Instr} {len tbase : Nat}
    {f o : Word} {s t : State} {r : Response} (h : play interp i len f o tbase s = .next t)
    (hr : t.response = some r) (hc : r.cause = 0#4 ∨ r.cause = 7#4) :
    0 < len ∧ t.phase = ((phasePath len f o s.phase s.srRecip).advanced len).bits := by
  have hfail : ∀ c : Cause, c.code ≠ 0#4 → c.code ≠ 7#4 → t ≠ s.fail c := by
    rintro c h0 h7 rfl
    cases hr
    exact hc.elim h0 h7
  rcases play_next h with ⟨-, ht⟩ | ⟨-, -, ht⟩ | ⟨-, -, -, ht⟩ | ⟨-, -, -, -, ht⟩ | ⟨-, hpos, -, -, ht⟩
  · exact absurd ht (hfail .state (by decide) (by decide))
  · exact absurd ht (hfail .len0 (by decide) (by decide))
  · exact absurd ht (hfail .range (by decide) (by decide))
  · exact absurd ht (hfail .numeric (by decide) (by decide))
  · exact ⟨hpos, by rw [ht, playCommit_phase]⟩

/-- Settles O30: the committed phase is the pattern of a `wrap`, which is below the length. -/
theorem committedPhaseIsBelowTheLength : Obligations.CommittedPhaseIsBelowTheLength := by
  intro len tbase f o s t r hlen i hi h hr hc
  obtain ⟨interp, hplay⟩ := exec_eq_play hi
  obtain ⟨hpos, hphase⟩ := play_commits_of_cause (hplay s ▸ h) hr hc
  obtain ⟨m, hwrap, hm, hlt⟩ := wrap_cases (phasePath len f o s.phase s.srRecip).next.units hpos hlen
  rw [hphase, PhasePath.advanced, hwrap]
  refine ⟨bits_toNat_lt hm, ?_⟩
  rw [f32_bits hm]
  simpa [Val.units] using Int.ofNat_lt.2 hlt

/-! ### What a command writes (R20 to R25) -/

/-- No command writes TMEM, its parameters, FAULTED or the host's interactions. -/
theorem exec_frame {i : Instr} {s t : State} (h : exec i s = .next t) :
    t = { s with
      phase := t.phase
      srRecip := t.srRecip
      lifecycle := t.lifecycle
      flags := t.flags
      lastCause := t.lastCause
      response := t.response } := by
  cases exec_next h with
  | playCommitted y w _ _ _ ht =>
    subst ht
    rcases playCommit_cases y w s with ⟨-, hc⟩ | ⟨-, hc⟩ <;> rw [hc] <;> rfl
  | _ => subst ‹t = _›; rfl

theorem exec_mem {i : Instr} {s t : State} (h : exec i s = .next t) : t.mem = s.mem := by
  rw [exec_frame h]

theorem exec_tmemInit {i : Instr} {s t : State} (h : exec i s = .next t) : t.tmemInit = s.tmemInit := by
  rw [exec_frame h]

theorem exec_tmemTop {i : Instr} {s t : State} (h : exec i s = .next t) : t.tmemTop = s.tmemTop := by
  rw [exec_frame h]

theorem exec_faulted {i : Instr} {s t : State} (h : exec i s = .next t) : t.faulted = s.faulted := by
  rw [exec_frame h]

theorem exec_inputs {i : Instr} {s t : State} (h : exec i s = .next t) : t.inputs = s.inputs := by
  rw [exec_frame h]

theorem exec_phase_of_not_writer {i : Instr} {s t : State} (h : exec i s = .next t)
    (hi : i.mnemonic ∉ ["INIT", "PLAY.FLOOR", "PLAY.LINEAR", "PLAY.CUBIC"]) : t.phase = s.phase := by
  cases exec_next h with
  | initDone _ _ _ hinit => simp [hinit, Instr.mnemonic] at hi
  | initFailed _ _ _ hinit => simp [hinit, Instr.mnemonic] at hi
  | playCommitted _ _ hplay => exact absurd (List.mem_cons_of_mem _ hplay) hi
  | _ => subst ‹t = _›; rfl

theorem exec_srRecip_of_not_writer {i : Instr} {s t : State} (h : exec i s = .next t)
    (hi : i.mnemonic ∉ ["INIT", "SETSR"]) : t.srRecip = s.srRecip := by
  cases exec_next h with
  | initDone _ _ _ hinit => simp [hinit, Instr.mnemonic] at hi
  | initFailed _ _ _ hinit => simp [hinit, Instr.mnemonic] at hi
  | setsrDone _ _ _ hsetsr => simp [hsetsr, Instr.mnemonic] at hi
  | _ => subst ‹t = _›; simp

theorem exec_lifecycle_of_not_writer {i : Instr} {s t : State} (h : exec i s = .next t)
    (hi : i.mnemonic ∉ ["INIT", "RELEASE"]) : t.lifecycle = s.lifecycle := by
  cases exec_next h with
  | initDone _ _ _ hinit => simp [hinit, Instr.mnemonic] at hi
  | initFailed _ _ _ hinit => simp [hinit, Instr.mnemonic] at hi
  | destroyed hrelease => simp [hrelease] at hi
  | _ => subst ‹t = _›; simp

/-- Settles O48: the writers of each register, and the frame of every command. -/
theorem registersAreWrittenOnlyByTheirWriters : Obligations.RegistersAreWrittenOnlyByTheirWriters := by
  intro i s t h
  exact ⟨exec_phase_of_not_writer h, exec_srRecip_of_not_writer h, exec_lifecycle_of_not_writer h, exec_mem h,
    exec_tmemInit h, exec_tmemTop h, exec_faulted h, exec_inputs h⟩

/-! ### STATE (R22, R110, R117, R150) -/

theorem Lifecycle.after_illegal {p : Packet} {e : DecodeError} (l : Lifecycle) (hd : decode p = .error e) :
    l.after (.command p) = l := by
  simp only [Lifecycle.after, hd]

theorem Lifecycle.after_init {p : Packet} {sr w2 w3 : Word} (l : Lifecycle) (hd : decode p = .ok (.init sr w2 w3)) :
    l.after (.command p) = if validSr sr then .ready else .uninit := by
  simp only [Lifecycle.after, hd]

theorem Lifecycle.after_release {p : Packet} {w1 w2 w3 : Word} (l : Lifecycle)
    (hd : decode p = .ok (.release w1 w2 w3)) :
    l.after (.command p) = if l = .ready then .released else l := by
  simp only [Lifecycle.after, hd]

theorem Lifecycle.after_of_not_writer {p : Packet} {i : Instr} (l : Lifecycle) (hd : decode p = .ok i)
    (hi : i.mnemonic ∉ ["INIT", "RELEASE"]) : l.after (.command p) = l := by
  cases i with
  | init => simp [Instr.mnemonic] at hi
  | release => simp [Instr.mnemonic] at hi
  | _ => simp only [Lifecycle.after, hd]

/-- A command leaves STATE as `Lifecycle.after` says for its packet. -/
theorem exec_lifecycle {p : Packet} {i : Instr} {s t : State} (hd : decode p = .ok i) (h : exec i s = .next t) :
    t.lifecycle = s.lifecycle.after (.command p) := by
  cases i with
  | init sr w2 w3 =>
    rw [Lifecycle.after_init _ hd]
    rcases execInit_cases sr w2 w3 s with ⟨hv, he⟩ | ⟨hv, he⟩ <;> rw [exec, he] at h <;> cases h <;> simp [hv]
  | release =>
    rw [Lifecycle.after_release _ hd]
    rcases execRelease_next h with ⟨hl, rfl⟩ | ⟨hl, rfl⟩ <;> simp [hl]
  | _ =>
    rw [Lifecycle.after_of_not_writer _ hd (by simp [Instr.mnemonic])]
    exact exec_lifecycle_of_not_writer h (by simp [Instr.mnemonic])

/-- STATE and the interactions left, after a step. -/
theorem step_lifecycle {s t : State} (h : step s = .next t) :
    (s.inputs = [] ∧ t.lifecycle = s.lifecycle) ∨
    (∃ input rest, s.inputs = input :: rest ∧ t.lifecycle = s.lifecycle.after input ∧ t.inputs = rest) := by
  obtain ⟨-, ⟨hin, rfl⟩ | ⟨p, rest, i, hin, hd, he⟩ | ⟨p, rest, e, hin, hd, rfl⟩ | ⟨a, w, rest, hin, -, rfl⟩ |
    ⟨cut, rest, hin, rfl⟩⟩ := step_next h
  · exact .inl ⟨hin, rfl⟩
  · exact .inr ⟨_, rest, hin, by rw [exec_lifecycle hd he, State.setInputs_lifecycle], exec_inputs he⟩
  · exact .inr ⟨_, rest, hin, (Lifecycle.after_illegal _ hd).symm, rfl⟩
  · exact .inr ⟨_, rest, hin, rfl, rfl⟩
  · exact .inr ⟨_, rest, hin, rfl, rfl⟩

/-- Settles O49: the two cases of `step_lifecycle`. -/
theorem stateFollowsTheLifecycle : Obligations.StateFollowsTheLifecycle := by
  intro s t h
  rcases step_lifecycle h with ⟨hnil, hlife⟩ | ⟨input, rest, hcons, hlife, hrest⟩
  · exact ⟨fun _ => hlife, fun input rest hcons => by simp [hnil] at hcons⟩
  · refine ⟨fun hnil => by simp [hcons] at hnil, fun input' rest' hcons' => ?_⟩
    obtain ⟨rfl, rfl⟩ := List.cons.inj (hcons.symm.trans hcons')
    exact ⟨hlife, hrest⟩

/-! ### The sticky flags and LAST_CAUSE (R23 to R25, R133) -/

/-- What a command or a step does to the flags and LAST_CAUSE: `exec_status`, `step_status`. -/
inductive StatusChange (s t : State) : Prop where
  | kept (hflags : t.flags = s.flags) (hlast : t.lastCause = s.lastCause)
  | recorded (c : Cause) (hflags : t.flags = s.flags ||| c.flag) (hlast : t.lastCause = c.code)
  | cleared (hflags : t.flags = 0#7) (hlast : t.lastCause = 0#4)

theorem playCommit_status (y : Val) (w : Word) (s : State) : StatusChange s (playCommit y w s) := by
  rcases playCommit_cases y w s with ⟨-, h⟩ | ⟨-, h⟩ <;> rw [h]
  · exact .kept rfl rfl
  · exact .recorded .sample rfl rfl

theorem exec_status {i : Instr} {s t : State} (h : exec i s = .next t) : StatusChange s t := by
  cases exec_next h with
  | initFailed _ _ _ _ _ ht => exact ht ▸ .recorded .sr rfl rfl
  | setsrFailed _ _ _ _ _ _ ht => exact ht ▸ .recorded .sr rfl rfl
  | notConstructed _ _ ht => exact ht ▸ .recorded .state rfl rfl
  | playFailed c _ _ _ ht => exact ht ▸ .recorded c rfl rfl
  | playCommitted y w _ _ _ ht => exact ht ▸ playCommit_status y w s
  | cleared _ ht => exact ht ▸ .cleared rfl rfl
  | _ => subst ‹t = _›; exact .kept rfl rfl

theorem step_status {s t : State} (h : step s = .next t) : StatusChange s t := by
  obtain ⟨-, ⟨-, rfl⟩ | ⟨p, rest, i, -, -, he⟩ | ⟨p, rest, e, -, -, rfl⟩ | ⟨a, w, rest, -, -, rfl⟩ |
    ⟨cut, rest, -, rfl⟩⟩ := step_next h
  · exact .kept rfl rfl
  · cases exec_status he with
    | kept hflags hlast => exact .kept hflags hlast
    | recorded c hflags hlast => exact .recorded c hflags hlast
    | cleared hflags hlast => exact .cleared hflags hlast
  · exact .recorded .illegal rfl rfl
  · exact .kept rfl rfl
  · exact .cleared rfl rfl

theorem Cause.code_le (c : Cause) : c.code.toNat ≤ 7 := by cases c <;> decide

theorem Cause.code_ne_zero (c : Cause) : c.code ≠ 0#4 := by cases c <;> decide

theorem Cause.flag_getLsbD (c : Cause) : c.flag.getLsbD (c.code.toNat - 1) = true := by cases c <;> decide

theorem statusConsistent_of_clear {s : State} (hflags : s.flags = 0#7) (hlast : s.lastCause = 0#4) :
    s.statusConsistent := by
  simp [State.statusConsistent, hflags, hlast]

/-- Recording a cause makes the status consistent, whatever the other flags are. -/
theorem statusConsistent_of_recorded {s : State} {old : BitVec 7} {c : Cause} (hflags : s.flags = old ||| c.flag)
    (hlast : s.lastCause = c.code) : s.statusConsistent := by
  rw [State.statusConsistent, hflags, hlast]
  refine ⟨c.code_le, fun h0 => absurd h0 c.code_ne_zero, fun _ => ?_⟩
  rw [BitVec.getLsbD_or, c.flag_getLsbD, Bool.or_true]

/-- Settles O52: the three changes of STATUS each keep or establish the invariant. -/
theorem everyStepKeepsTheStatusConsistent : Obligations.EveryStepKeepsTheStatusConsistent := by
  intro s t hs h
  cases step_status h with
  | kept hflags hlast => rwa [State.statusConsistent, hflags, hlast]
  | recorded c hflags hlast => exact statusConsistent_of_recorded hflags hlast
  | cleared hflags hlast => exact statusConsistent_of_clear hflags hlast

/-- Settles O53: at reset no cause is recorded. -/
theorem resetStatusIsConsistent : Obligations.ResetStatusIsConsistent := statusConsistent_of_clear rfl rfl

/-! ### PHASE and SR_RECIP (R20, R21, R30) -/

/-- A packet carries a length of 24 bits and a table base of 32 (R64, R67). -/
theorem wellFormed_of_decode {p : Packet} {i : Instr} (h : decode p = .ok i) : i.wellFormed = true := by
  have hplay : playFieldsFit (argField p.cmd).toNat p.w3.toNat = true := by
    simp [playFieldsFit, (argField p.cmd).isLt, p.w3.isLt]
  obtain ⟨-, ⟨-, -, rfl⟩ | ⟨-, rfl⟩ | ⟨-, rfl⟩ | ⟨-, rfl⟩ | ⟨-, -, rfl⟩ | ⟨-, hread⟩ | ⟨-, -, rfl⟩ | ⟨-, -, rfl⟩⟩ :=
    decode_ok h
  · rfl
  · exact hplay
  · exact hplay
  · exact hplay
  · rfl
  · obtain ⟨-, ⟨-, rfl⟩ | ⟨-, rfl⟩ | ⟨-, rfl⟩⟩ := decodeRead_ok hread <;> rfl
  · rfl
  · rfl

/-- The largest magnitude is below 2^277, the number 1 squared, both in units, is 2^298. -/
theorem IsMag.le_unitsPerOne_sq {m : Nat} (h : IsMag m) : m ≤ unitsPerOne * unitsPerOne := by
  have hexp : quantumExp m + 24 ≤ 149 + 149 := by have := h.1; omega
  calc m ≤ 2 ^ (quantumExp m + 24) := (lt_two_pow_quantumExp m).le
    _ ≤ 2 ^ 149 * 2 ^ 149 := by rw [← pow_add]; exact pow_le_pow_right₀ (by decide) hexp

theorem magPattern_pos {m : Nat} (h : 0 < m) : 0 < magPattern m := by
  rcases Nat.eq_zero_or_pos (quantumExp m) with h0 | hpos
  · simpa [magPattern, h0] using h
  · exact Nat.add_pos_left (Nat.mul_pos hpos (by decide)) _

/-- An exact value of at least one unit does not round to zero: one unit is nearer. -/
theorem roundedMag_pos {num den : Nat} (hd : 0 < den) (h : den ≤ num) : 0 < roundedMag num den := by
  have hone : IsMag 1 := by simpa using isMag_mul (sig := 1) (e := 0) (by decide) (by decide)
  obtain ⟨hnear, -⟩ := roundedMag_nearest (num := num) hd hone
  by_contra hzero
  rw [Nat.eq_zero_of_not_pos hzero] at hnear
  push_cast at hnear
  rw [zero_mul, zero_sub, one_mul, abs_neg, abs_of_nonneg (by omega), abs_of_nonpos (by omega)] at hnear
  omega

/-- The reciprocal of a valid rate is a positive finite number: a binary32 rate is below 2^128, so that its
reciprocal is not less than the smallest unit (R110, R111). -/
theorem reciprocal_of_validSr {sr : Word} (hv : validSr sr = true) :
    ∃ m, reciprocal sr = .finite false m ∧ IsMag m ∧ 0 < m := by
  obtain ⟨hfin, hunits, hrecip⟩ := (validSr_iff sr).1 hv
  obtain ⟨neg, k, hk⟩ := exists_finite_of_isFinite hfin
  rw [hk] at hunits
  obtain ⟨rfl, hkpos⟩ : neg = false ∧ 0 < k := by
    cases neg <;> simp [Val.units] at hunits ⊢ <;> omega
  have hdiv : reciprocal sr = rnd false (unitsPerOne * unitsPerOne) k := by
    rw [reciprocal, hk, one, ofInt, fdiv_finite _ _ _ hkpos.ne', Nat.one_mul, bne_self_eq_false]
  have hbelow : unitsPerOne * unitsPerOne < k * ((2 ^ 25 - 1) * 2 ^ 252) := by
    by_contra hge
    rw [hdiv, (rnd_eq_inf_iff false _ hkpos).2 (Nat.le_of_not_lt hge)] at hrecip
    cases hrecip
  have hone : k ≤ unitsPerOne * unitsPerOne := (f32_finite_isMag hk).le_unitsPerOne_sq
  exact ⟨_, hdiv.trans (rnd_eq_finite false hkpos hbelow), isMag_roundedMag hkpos hbelow, roundedMag_pos hkpos hone⟩

theorem reciprocal_bits {sr : Word} (hv : validSr sr = true) :
    0 < (reciprocal sr).bits.toNat ∧ (reciprocal sr).bits.toNat < 0x7F800000 := by
  obtain ⟨m, hm, hmag, hpos⟩ := reciprocal_of_validSr hv
  rw [hm]
  refine ⟨?_, bits_toNat_lt hmag⟩
  rw [bits_toNat hmag]
  exact Nat.add_pos_right _ (magPattern_pos hpos)

theorem registersLegal_congr {s t : State} (hphase : t.phase = s.phase) (hrecip : t.srRecip = s.srRecip)
    (hlife : t.lifecycle = s.lifecycle) : t.registersLegal ↔ s.registersLegal := by
  rw [State.registersLegal, State.registersLegal, hphase, hrecip, hlife]

theorem registersLegal_of_uninit {s : State} (hl : s.lifecycle = .uninit) (hphase : s.phase = 0x00000000#32)
    (hrecip : s.srRecip = 0x00000000#32) : s.registersLegal := by
  simp [State.registersLegal, hl, hphase, hrecip]

theorem registersLegal_of_ready {s : State} (hl : s.lifecycle = .ready) (hphase : s.phase.toNat < 0x7F800000)
    (hrecip : 0 < s.srRecip.toNat ∧ s.srRecip.toNat < 0x7F800000) : s.registersLegal := by
  refine ⟨hphase, hrecip.2, fun _ => hrecip.1, fun hu => ?_⟩
  rw [hl] at hu
  cases hu

theorem registersLegal_of_released {s : State} (hl : s.lifecycle = .released) (hphase : s.phase.toNat < 0x7F800000)
    (hrecip : s.srRecip.toNat < 0x7F800000) : s.registersLegal := by
  simp [State.registersLegal, hl, hphase, hrecip]

/-- A command that a packet can carry keeps the registers legal. -/
theorem exec_registersLegal {i : Instr} {s t : State} (hi : i.wellFormed = true) (hs : s.registersLegal)
    (h : exec i s = .next t) : t.registersLegal := by
  obtain ⟨hphase, hrecip, hready, -⟩ := id hs
  cases exec_next h with
  | initDone _ _ _ _ hv ht =>
    subst ht
    exact registersLegal_of_ready rfl (by simp) (reciprocal_bits hv)
  | initFailed _ _ _ _ _ ht => exact ht ▸ registersLegal_of_uninit rfl rfl rfl
  | setsrDone _ _ _ _ hl hv ht =>
    subst ht
    exact registersLegal_of_ready hl hphase (reciprocal_bits hv)
  | playCommitted y w _ hl hw ht =>
    subst ht
    refine registersLegal_of_ready ?_ ?_ ?_
    · rw [playCommit_lifecycle, hl]
    · rw [playCommit_phase]; exact hw hi
    · rw [playCommit_srRecip]; exact ⟨hready hl, hrecip⟩
  | destroyed _ _ ht =>
    subst ht
    exact registersLegal_of_released rfl hphase hrecip
  | _ => subst ‹t = _›; exact (registersLegal_congr rfl rfl rfl).2 hs

/-- Settles O50: by the host's next interaction, with `exec_registersLegal` for a command. -/
theorem everyStepKeepsTheRegistersLegal : Obligations.EveryStepKeepsTheRegistersLegal := by
  intro s t hs h
  obtain ⟨-, ⟨-, rfl⟩ | ⟨p, rest, i, -, hd, he⟩ | ⟨p, rest, e, -, -, rfl⟩ | ⟨a, w, rest, -, -, rfl⟩ |
    ⟨cut, rest, -, rfl⟩⟩ := step_next h
  · exact (registersLegal_congr rfl rfl rfl).2 hs
  · have hs' : (s.setInputs rest).registersLegal := (registersLegal_congr rfl rfl rfl).2 hs
    exact exec_registersLegal (wellFormed_of_decode hd) hs' he
  · exact (registersLegal_congr rfl rfl rfl).2 hs
  · exact (registersLegal_congr rfl rfl rfl).2 hs
  · exact registersLegal_of_uninit rfl rfl rfl

/-- Settles O51: at reset there is no engine and both registers are +0.0. -/
theorem resetRegistersAreLegal : Obligations.ResetRegistersAreLegal := registersLegal_of_uninit rfl rfl rfl

/-- A register read that gives a next state answers the register. -/
theorem response_of_readRegister {i : Instr} {data : Word} {s t : State} (h : readRegister i data s = .next t) :
    t.response = some ⟨data, 0#4⟩ := by
  rcases readRegister_cases i data s with ⟨-, he⟩ | ⟨-, he⟩ <;> rw [he] at h <;> cases h
  rfl

/-- Settles O56: the answer is the register, and legal registers are finite and not negative. -/
theorem registerReadsNeverAnswerANan : Obligations.RegisterReadsNeverAnswerANan := by
  intro w1 w2 w3 s t r hs i hi h hr
  obtain ⟨hphase, hrecip, -⟩ := hs
  simp only [List.mem_cons, List.not_mem_nil, or_false] at hi
  rcases hi with rfl | rfl
  · cases (response_of_readRegister h).symm.trans hr
    exact hphase
  · cases (response_of_readRegister h).symm.trans hr
    exact hrecip

/-! ### The STATUS word and reset (R22, R23, R150) -/

theorem toNat_append {m n : Nat} (x : BitVec m) (y : BitVec n) : (x ++ y).toNat = x.toNat * 2 ^ n + y.toNat := by
  rw [BitVec.toNat_append, ← Nat.shiftLeft_add_eq_or_of_lt y.isLt, Nat.shiftLeft_eq]

theorem Lifecycle.code_lt (l : Lifecycle) : l.code.toNat < 3 := by cases l <;> decide

/-- Settles O19: the six fields of the word, each shifted by the widths below it. -/
theorem statusWordLayout : Obligations.StatusWordLayout := by
  intro s
  refine ⟨?_, s.lifecycle.code_lt⟩
  simp only [State.statusWord, toNat_append, BitVec.toNat_ofNat]
  omega

/-- Settles O15: each is a field of `State.reset`, and STATUS is the view of three of them. -/
theorem resetValuesOfTheRegisters : Obligations.ResetValuesOfTheRegisters := ⟨rfl, rfl, rfl, rfl, rfl, rfl⟩

/-! ### The mark FAULTED (R29) -/

theorem step_of_faulted {s : State} {r : FaultRecord} (h : s.faulted = some r) :
    step s = .fault (.useAfterRelease s) := by
  simp only [step, h]

/-- No step that goes on writes FAULTED. -/
theorem step_faulted {s t : State} (h : step s = .next t) : t.faulted = s.faulted := by
  obtain ⟨-, ⟨-, rfl⟩ | ⟨p, rest, i, -, -, he⟩ | ⟨p, rest, e, -, -, rfl⟩ | ⟨a, w, rest, -, -, rfl⟩ |
    ⟨cut, rest, -, rfl⟩⟩ := step_next h
  · rfl
  · rw [exec_faulted he, State.setInputs_faulted]
  · rfl
  · rfl
  · rfl

/-- Settles O45: a marked state stops, and a step that goes on starts unmarked and writes no mark. -/
theorem recordedFaultIsNeverCleared : Obligations.RecordedFaultIsNeverCleared := by
  refine ⟨fun s r => step_of_faulted, fun s t h => ?_⟩
  have hnone := (step_next h).1
  exact ⟨hnone, (step_faulted h).trans hnone⟩

end Sys2Proof.Machine

/-! PROOFS. TMEM, its byte image and the host's port to it (spec/20_memory.md): which steps write TMEM, what a host
table write stores, and that a packet's step is its instruction's meaning. -/

namespace Sys2Proof.Machine

/-! ### The bytes of a word (R45) -/

theorem byteOf_toNat (w : Word) (k : Nat) : (byteOf w k).toNat = w.toNat / 2 ^ (8 * k) % 256 := by
  rw [byteOf, BitVec.extractLsb'_toNat, Nat.shiftRight_eq_div_pow]

/-- A word is determined by its four bytes. -/
theorem word_eq_of_byteOf_eq {v w : Word} (h : ∀ k < 4, byteOf v k = byteOf w k) : v = w := by
  apply BitVec.eq_of_getLsbD_eq
  intro i hi
  have hbyte := congrArg (BitVec.getLsbD · (i % 8)) (h (i / 8) (by omega))
  have hbit : i % 8 < 8 := Nat.mod_lt i (by decide)
  simpa only [byteOf, BitVec.getLsbD_extractLsb', hbit, decide_true, Bool.true_and, Nat.div_add_mod] using hbyte

theorem Memory.readWord_toNat (init m : List Host.Cell) (a : Nat) :
    (Memory.readWord init m a).toNat =
      (((Memory.readByte init m (4 * a + 3)).toNat * 256 + (Memory.readByte init m (4 * a + 2)).toNat) * 256
        + (Memory.readByte init m (4 * a + 1)).toNat) * 256 + (Memory.readByte init m (4 * a)).toNat := by
  simp only [Memory.readWord, toNat_append, Nat.reducePow]

/-- The word read at `a` has the image's bytes, the lowest address lowest. -/
theorem Memory.byteOf_readWord (init m : List Host.Cell) (a : Nat) {k : Nat} (hk : k < 4) :
    byteOf (Memory.readWord init m a) k = Memory.readByte init m (4 * a + k) := by
  apply BitVec.eq_of_toNat_eq
  rw [byteOf_toNat, Memory.readWord_toNat]
  have h0 := (Memory.readByte init m (4 * a)).isLt
  have h1 := (Memory.readByte init m (4 * a + 1)).isLt
  have h2 := (Memory.readByte init m (4 * a + 2)).isLt
  have h3 := (Memory.readByte init m (4 * a + 3)).isLt
  interval_cases k <;> simp only [Nat.add_zero, Nat.mul_zero, Nat.mul_one, Nat.reduceMul, Nat.reducePow] <;> omega

/-- Settles O13: `Memory.byteOf_readWord`, with the byte written as a quotient and a remainder. -/
theorem byteImageIsLittleEndian : Obligations.ByteImageIsLittleEndian := by
  intro s a k hk
  rw [← byteOf_toNat, State.memRead, State.memByte, Memory.byteOf_readWord _ _ _ hk]

/-! ### A host table write (R51) -/

/-- A word reads back after its write. -/
theorem Memory.readWord_writeWord_same {init m : List Host.Cell} (h : Memory.wf init m) (a : Nat) (w : Word) :
    Memory.readWord init (Memory.writeWord init m a w) a = w := by
  apply word_eq_of_byteOf_eq
  intro k hk
  rw [Memory.byteOf_readWord _ _ _ hk, Memory.readByte_writeWord h, if_pos (by omega), Nat.add_sub_cancel_left]

/-- An unmarked step performs the host's next interaction. -/
theorem step_of_inputs_cons {s : State} {input : HostInput} {rest : List HostInput} (hf : s.faulted = none)
    (hin : s.inputs = input :: rest) : step s = performInput input (s.setInputs rest) := by
  simp only [step, hf, stepPort, hin]

theorem step_of_tableWrite {s : State} {a : Nat} {w : Word} {rest : List HostInput} (hf : s.faulted = none)
    (hin : s.inputs = .tableWrite a w :: rest) (ha : a < s.tmemWords) :
    step s = .next { s with mem := Memory.writeWord s.tmemInit s.mem a w, inputs := rest, response := none } := by
  rw [step_of_inputs_cons hf hin]
  exact if_pos ha

/-- Settles O12: the next state is `step_of_tableWrite`'s, and its bytes are those of `Memory.readByte_writeWord`. -/
theorem hostTableWriteStoresOneWord : Obligations.HostTableWriteStoresOneWord := by
  intro a w rest s hf hin hwf ha
  refine ⟨_, step_of_tableWrite hf hin ha, rfl, Memory.readWord_writeWord_same hwf a w, fun b hb => ?_⟩
  rw [State.memByte, Memory.readByte_writeWord hwf, if_neg hb, State.memByte]

/-! ### Which steps write TMEM (R41) -/

/-- A step keeps TMEM's parameters, and keeps TMEM or performs a host table write inside it. -/
theorem step_tmem {s t : State} (h : step s = .next t) :
    t.tmemTop = s.tmemTop ∧ t.tmemInit = s.tmemInit ∧
    (t.mem = s.mem ∨ ∃ a w rest, s.inputs = .tableWrite a w :: rest ∧ a < s.tmemWords ∧
      t.mem = Memory.writeWord s.tmemInit s.mem a w) := by
  obtain ⟨-, ⟨-, rfl⟩ | ⟨p, rest, i, -, -, he⟩ | ⟨p, rest, e, -, -, rfl⟩ | ⟨a, w, rest, hin, ha, rfl⟩ |
    ⟨cut, rest, -, rfl⟩⟩ := step_next h
  · exact ⟨rfl, rfl, .inl rfl⟩
  · rw [exec_tmemTop he, exec_tmemInit he, exec_mem he]
    exact ⟨rfl, rfl, .inl rfl⟩
  · exact ⟨rfl, rfl, .inl rfl⟩
  · exact ⟨rfl, rfl, .inr ⟨a, w, rest, hin, ha, rfl⟩⟩
  · exact ⟨rfl, rfl, .inl rfl⟩

/-- Settles O47: the frame of a command, and `step_tmem` without its host table write. -/
theorem onlyTheHostWritesTmem : Obligations.OnlyTheHostWritesTmem := by
  refine ⟨fun i s t h => ⟨exec_mem h, State.memByte_eq_of_mem (exec_mem h) (exec_tmemInit h)⟩, fun s t h => ?_⟩
  obtain ⟨htop, hinit, hmem | ⟨a, w, rest, hin, -, -⟩⟩ := step_tmem h
  · exact ⟨htop, hinit, fun _ => State.memByte_eq_of_mem hmem hinit⟩
  · exact ⟨htop, hinit, fun hno => absurd hin (hno a w rest)⟩

/-- A word write inside TMEM lists no byte outside its words. -/
theorem Memory.lt_of_mem_writeWord {init m : List Host.Cell} {a words : Nat} {w : Word} (ha : a < words)
    (hm : ∀ c ∈ m, c.1 < 4 * words) : ∀ c ∈ Memory.writeWord init m a w, c.1 < 4 * words := by
  intro c hc
  rcases Memory.mem_writeWord hc with ⟨-, hlt⟩ | hold
  · omega
  · exact hm c hold

/-- Settles O54: TMEM is kept, or written at a word it has. -/
theorem everyStepKeepsTmemLegal : Obligations.EveryStepKeepsTmemLegal := by
  intro s t ⟨hwf, hbound⟩ h
  obtain ⟨htop, hinit, hmem⟩ := step_tmem h
  rw [State.memLegal, hinit, State.tmemWords_eq_of_tmemTop htop]
  rcases hmem with hkept | ⟨a, w, rest, -, ha, hwritten⟩
  · rw [hkept]
    exact ⟨hwf, hbound⟩
  · rw [hwritten]
    exact ⟨Memory.wf_writeWord hwf a w, Memory.lt_of_mem_writeWord ha hbound⟩

/-! ### A packet's step (R50, R73) -/

theorem performPacket_of_decode {p : Packet} {i : Instr} (hd : decode p = .ok i) (s : State) :
    performPacket p s = exec i s := by
  simp only [performPacket, hd]

theorem step_of_command {s : State} {p : Packet} {i : Instr} {rest : List HostInput} (hf : s.faulted = none)
    (hin : s.inputs = .command p :: rest) (hd : decode p = .ok i) : step s = exec i (s.setInputs rest) :=
  (step_of_inputs_cons hf hin).trans (performPacket_of_decode hd _)

/-- Settles O8: `step_of_command`, and a decoded instruction is well formed. -/
theorem stepRunsTheDecodedInstruction : Obligations.StepRunsTheDecodedInstruction := by
  intro p rest i s hf hin hd
  exact ⟨wellFormed_of_decode hd, step_of_command hf hin hd⟩

theorem decode_of_decodeTableWord {nbits w : Nat} {i : Instr} (h : decodeTableWord nbits w = some i) :
    decode (packetOfTableWord nbits w) = .ok i := by
  unfold decodeTableWord at h
  split at h
  · cases h
    assumption
  · cases h

/-- Settles O9: the placed packet comes first, and performing it leaves the interactions that were there. -/
theorem placedWordIsTheNextInstruction : Obligations.PlacedWordIsTheNextInstruction := by
  intro nbits w i s hf h
  have hin := State.withFetchWord_inputs (s := s) nbits w
  exact step_of_command (s := s.withFetchWord nbits w) hf hin (decode_of_decodeTableWord h)

end Sys2Proof.Machine

/-! PROOFS. The encoding of packets (spec/30_encoding.md R60 to R73): the decoder against the encoder and against the
opcode map, the length field, illegal words, ignored words, and the one response of a packet. -/

namespace Sys2Proof.Machine

/-! ### Decode after encode (R61, R64, R66, R68) -/

/-- An opcode and the instruction it stands for. -/
abbrev PlayKind := BitVec 4 × (Nat → Word → Word → Nat → Instr)

/-- The three PLAY commands. -/
def playKinds : List PlayKind :=
  [(2#4, .playFloor), (3#4, .playLinear), (4#4, .playCubic)]

theorem opField_toNat (cmd : Word) : (opField cmd).toNat = cmd.toNat % 16 := by
  rw [opField, BitVec.extractLsb'_toNat, Nat.shiftRight_zero]

theorem mbzField_toNat (cmd : Word) : (mbzField cmd).toNat = cmd.toNat / 16 % 16 := by
  rw [mbzField, BitVec.extractLsb'_toNat, Nat.shiftRight_eq_div_pow]

theorem argField_toNat (cmd : Word) : (argField cmd).toNat = cmd.toNat / 256 := by
  have hlt := cmd.isLt
  rw [argField, BitVec.extractLsb'_toNat, Nat.shiftRight_eq_div_pow, Nat.mod_eq_of_lt (by omega)]

/-- The low byte of a command word alone makes it a PLAY, the other 24 bits are the length. -/
theorem decode_of_playKind {k : PlayKind} (hk : k ∈ playKinds) {p : Packet} (hlow : p.cmd.toNat % 256 = k.1.toNat) :
    decode p = .ok (k.2 (p.cmd.toNat / 256) p.w1 p.w2 p.w3.toNat) := by
  have hop : opField p.cmd = k.1 := by
    apply BitVec.eq_of_toNat_eq
    rw [opField_toNat]
    omega
  have hmbz : mbzField p.cmd = 0#4 := by
    apply BitVec.eq_of_toNat_eq
    rw [mbzField_toNat, BitVec.toNat_zero]
    omega
  rw [← argField_toNat]
  simp only [playKinds, List.mem_cons, List.not_mem_nil, or_false] at hk
  rcases hk with rfl | rfl | rfl <;> simp [decode, hmbz, hop]

theorem playPacket_cmd_toNat (op : BitVec 4) {len : Nat} (hlen : len < 2 ^ 24) (f o : Word) (tbase : Nat) :
    (playPacket op len f o tbase).cmd.toNat = len * 256 + op.toNat := by
  simp only [playPacket, toNat_append, BitVec.toNat_ofNat, Nat.mod_eq_of_lt hlen]
  omega

theorem encode_of_playKind {k : PlayKind} (hk : k ∈ playKinds) (len : Nat) (f o : Word) (tbase : Nat) :
    encode (k.2 len f o tbase) = playPacket k.1 len f o tbase := by
  simp only [playKinds, List.mem_cons, List.not_mem_nil, or_false] at hk
  rcases hk with rfl | rfl | rfl <;> rfl

theorem wellFormed_of_playKind {k : PlayKind} (hk : k ∈ playKinds) (len : Nat) (f o : Word) (tbase : Nat) :
    (k.2 len f o tbase).wellFormed = playFieldsFit len tbase := by
  simp only [playKinds, List.mem_cons, List.not_mem_nil, or_false] at hk
  rcases hk with rfl | rfl | rfl <;> rfl

theorem lt_of_playFieldsFit {len tbase : Nat} (h : playFieldsFit len tbase = true) : len < 2 ^ 24 ∧ tbase < 2 ^ 32 := by
  simpa only [playFieldsFit, Bool.and_eq_true, decide_eq_true_eq] using h

theorem decode_encode_play {k : PlayKind} (hk : k ∈ playKinds) {len tbase : Nat} (f o : Word)
    (hfit : playFieldsFit len tbase = true) :
    decode (encode (k.2 len f o tbase)) = .ok (k.2 len f o tbase) := by
  obtain ⟨hlen, htbase⟩ := lt_of_playFieldsFit hfit
  have hop : k.1.toNat < 16 := k.1.isLt
  have hcmd := playPacket_cmd_toNat k.1 hlen f o tbase
  have hw3 : (playPacket k.1 len f o tbase).w3.toNat = tbase := Nat.mod_eq_of_lt htbase
  have hdiv : (len * 256 + k.1.toNat) / 256 = len := by omega
  rw [encode_of_playKind hk, decode_of_playKind hk (by rw [hcmd]; omega), hcmd, hw3, hdiv]
  rfl

/-- Settles O1: a PLAY by its fields; every other command word is one fixed word. -/
theorem encodedInstructionDecodesBack : Obligations.EncodedInstructionDecodesBack := by
  intro i hi
  cases i with
  | playFloor len f o tbase => exact decode_encode_play (k := (2#4, .playFloor)) (by simp [playKinds]) f o hi
  | playLinear len f o tbase => exact decode_encode_play (k := (3#4, .playLinear)) (by simp [playKinds]) f o hi
  | playCubic len f o tbase => exact decode_encode_play (k := (4#4, .playCubic)) (by simp [playKinds]) f o hi
  | _ => simp [encode, decode, decodeRead, withoutArg, opField, mbzField, argField, selField, mbz2Field]

/-! ### Encode after decode (R61, R66, R67) -/

/-- The decoder keeps every bit of a legal packet: the fields it has checked, with those it keeps, are the command
word. -/
theorem encode_of_decode {p : Packet} {i : Instr} (h : decode p = .ok i) : encode i = p := by
  obtain ⟨cmd, w1, w2, w3⟩ := p
  have hplay : ∀ op, argField cmd ++ 0#4 ++ op = cmd →
      playPacket op (argField cmd).toNat w1 w2 w3.toNat = ⟨cmd, w1, w2, w3⟩ := by
    intro op hcmd
    simp only [playPacket, BitVec.ofNat_toNat, BitVec.setWidth_eq, hcmd]
  obtain ⟨hmbz, hrow⟩ := decode_ok h
  have hcmd := cmd_fields cmd
  simp only at hmbz hrow
  rw [hmbz] at hcmd
  rcases hrow with ⟨hop, harg, rfl⟩ | ⟨hop, rfl⟩ | ⟨hop, rfl⟩ | ⟨hop, rfl⟩ | ⟨hop, harg, rfl⟩ | ⟨hop, hread⟩ |
    ⟨hop, harg, rfl⟩ | ⟨hop, harg, rfl⟩ <;> rw [hop] at hcmd
  · rw [harg] at hcmd; exact congrArg (Packet.mk · w1 w2 w3) hcmd
  · exact hplay _ hcmd
  · exact hplay _ hcmd
  · exact hplay _ hcmd
  · rw [harg] at hcmd; exact congrArg (Packet.mk · w1 w2 w3) hcmd
  · rw [argField_eq] at hcmd
    obtain ⟨hmbz2, ⟨hsel, rfl⟩ | ⟨hsel, rfl⟩ | ⟨hsel, rfl⟩⟩ := decodeRead_ok hread <;>
      rw [hmbz2, hsel] at hcmd <;> exact congrArg (Packet.mk · w1 w2 w3) hcmd
  · rw [harg] at hcmd; exact congrArg (Packet.mk · w1 w2 w3) hcmd
  · rw [harg] at hcmd; exact congrArg (Packet.mk · w1 w2 w3) hcmd

/-- Settles O2. -/
theorem legalPacketIsItsInstructionsPacket : Obligations.LegalPacketIsItsInstructionsPacket :=
  fun _ _ h => ⟨wellFormed_of_decode h, encode_of_decode h⟩

/-! ### The opcode map (R68, R73) -/

theorem hit_of_full_mask (mnemonic : String) (pattern cmd : Word) :
    OpcodeRow.hit ⟨mnemonic, pattern, 0xFFFFFFFF#32⟩ cmd = true ↔ cmd.toNat = pattern.toNat := by
  have hmask : cmd &&& 0xFFFFFFFF#32 = cmd := BitVec.and_allOnes
  rw [OpcodeRow.hit, beq_iff_eq, hmask, BitVec.toNat_inj]

theorem hit_of_byte_mask (mnemonic : String) (pattern cmd : Word) :
    OpcodeRow.hit ⟨mnemonic, pattern, 0x000000FF#32⟩ cmd = true ↔ cmd.toNat % 256 = pattern.toNat := by
  have hmask : (cmd &&& 0x000000FF#32).toNat = cmd.toNat % 256 := Nat.and_two_pow_sub_one_eq_mod cmd.toNat 8
  rw [OpcodeRow.hit, beq_iff_eq, ← BitVec.toNat_inj, hmask]

/-- The command words of the opcode map, as numbers. -/
theorem exists_hit_iff (cmd : Word) : (∃ r ∈ opcodeMap, r.hit cmd = true) ↔
    cmd.toNat = 1 ∨ cmd.toNat % 256 = 2 ∨ cmd.toNat % 256 = 3 ∨ cmd.toNat % 256 = 4 ∨ cmd.toNat = 5 ∨ cmd.toNat = 6 ∨
    cmd.toNat = 0x106 ∨ cmd.toNat = 0x206 ∨ cmd.toNat = 7 ∨ cmd.toNat = 8 := by
  simp only [opcodeMap, List.mem_cons, List.not_mem_nil, or_false, exists_eq_or_imp, exists_eq_left, hit_of_full_mask,
    hit_of_byte_mask, BitVec.reduceToNat]

/-- No command word belongs to two rows: where two rows' masks overlap, their patterns differ. -/
theorem row_unique {r r' : OpcodeRow} (hr : r ∈ opcodeMap) (hr' : r' ∈ opcodeMap) {cmd : Word}
    (h : r.hit cmd = true) (h' : r'.hit cmd = true) : r = r' := by
  have hdisjoint : ∀ r ∈ opcodeMap, ∀ r' ∈ opcodeMap, r.pattern &&& r'.mask = r'.pattern &&& r.mask → r = r' := by
    decide
  rw [OpcodeRow.hit, beq_iff_eq] at h h'
  exact hdisjoint r hr r' hr' (by rw [← h, ← h', BitVec.and_assoc, BitVec.and_assoc, BitVec.and_comm r.mask])

/-- Every instruction's command word belongs to the row with its mnemonic. -/
theorem rowMatch (i : Instr) : Laws.RowMatch.Statement i := by
  cases i with
  | init => exact Laws.RowMatch.init _ _ _
  | playFloor => exact Laws.RowMatch.playFloor _ _ _ _
  | playLinear => exact Laws.RowMatch.playLinear _ _ _ _
  | playCubic => exact Laws.RowMatch.playCubic _ _ _ _
  | setsr => exact Laws.RowMatch.setsr _ _ _
  | rdStatus => exact Laws.RowMatch.rdStatus _ _ _
  | rdPhase => exact Laws.RowMatch.rdPhase _ _ _
  | rdSrrecip => exact Laws.RowMatch.rdSrrecip _ _ _
  | clrst => exact Laws.RowMatch.clrst _ _ _
  | release => exact Laws.RowMatch.release _ _ _

theorem exists_row_of_decode {p : Packet} {i : Instr} (h : decode p = .ok i) :
    ∃ r ∈ opcodeMap, r.mnemonic = i.mnemonic ∧ r.hit p.cmd = true := by
  have hrow := rowMatch i
  rwa [Laws.RowMatch.Statement, encode_of_decode h] at hrow

/-- A command word of the map decodes, whatever the operand words are. -/
theorem exists_decode_of_hit {p : Packet} (h : ∃ r ∈ opcodeMap, r.hit p.cmd = true) : ∃ i, decode p = .ok i := by
  have hplay : ∀ k ∈ playKinds, p.cmd.toNat % 256 = k.1.toNat → ∃ i, decode p = .ok i :=
    fun k hk hlow => ⟨_, decode_of_playKind hk hlow⟩
  have hfixed : ∀ i cmd, i.wellFormed = true → encode i = ⟨cmd, p.w1, p.w2, p.w3⟩ → p.cmd.toNat = cmd.toNat →
      ∃ i, decode p = .ok i := by
    intro i cmd hi hencode hcmd
    refine ⟨i, ?_⟩
    rw [← encodedInstructionDecodesBack i hi, hencode, ← BitVec.eq_of_toNat_eq hcmd]
  rcases (exists_hit_iff p.cmd).1 h with h | h | h | h | h | h | h | h | h | h
  · exact hfixed (.init ..) 1#32 rfl rfl h
  · exact hplay (2#4, .playFloor) (by simp [playKinds]) h
  · exact hplay (3#4, .playLinear) (by simp [playKinds]) h
  · exact hplay (4#4, .playCubic) (by simp [playKinds]) h
  · exact hfixed (.setsr ..) 5#32 rfl rfl h
  · exact hfixed (.rdStatus ..) 6#32 rfl rfl h
  · exact hfixed (.rdPhase ..) 0x106#32 rfl rfl h
  · exact hfixed (.rdSrrecip ..) 0x206#32 rfl rfl h
  · exact hfixed (.clrst ..) 7#32 rfl rfl h
  · exact hfixed (.release ..) 8#32 rfl rfl h

theorem exists_decode_iff (p : Packet) : (∃ i, decode p = .ok i) ↔ ∃ r ∈ opcodeMap, r.hit p.cmd = true := by
  refine ⟨fun ⟨i, h⟩ => ?_, exists_decode_of_hit⟩
  obtain ⟨r, hr, -, hhit⟩ := exists_row_of_decode h
  exact ⟨r, hr, hhit⟩

theorem mnemonic_of_hit {p : Packet} {i : Instr} (h : decode p = .ok i) {r : OpcodeRow} (hr : r ∈ opcodeMap)
    (hhit : r.hit p.cmd = true) : i.mnemonic = r.mnemonic := by
  obtain ⟨r', hr', hmnemonic, hhit'⟩ := exists_row_of_decode h
  rw [← hmnemonic, row_unique hr' hr hhit' hhit]

/-- The length of a decoded PLAY is CMD[31:8]. -/
theorem len_of_decode_play {k : PlayKind} (hk : k ∈ playKinds) {p : Packet} {len tbase : Nat} {f o : Word}
    (h : decode p = .ok (k.2 len f o tbase)) : len = p.cmd.toNat / 256 := by
  have hfit := (wellFormed_of_playKind hk len f o tbase).symm.trans (wellFormed_of_decode h)
  have hop : k.1.toNat < 16 := k.1.isLt
  have hcmd := playPacket_cmd_toNat k.1 (lt_of_playFieldsFit hfit).1 f o tbase
  rw [← encode_of_playKind hk, encode_of_decode h] at hcmd
  omega

/-- Settles O3: the packet is its instruction's packet, whose command word is in the row with its mnemonic, and no
other row has it. -/
theorem decodeReturnsTheUniqueMatchingRow : Obligations.DecodeReturnsTheUniqueMatchingRow := by
  refine ⟨exists_decode_iff, fun cmd r hr r' hr' => row_unique hr hr', fun p i h r hr => mnemonic_of_hit h hr,
    fun p len tbase f o h => ?_, fun p q i hcmd h => ?_⟩
  · rcases h with h | h | h
    · exact len_of_decode_play (k := (2#4, .playFloor)) (by simp [playKinds]) h
    · exact len_of_decode_play (k := (3#4, .playLinear)) (by simp [playKinds]) h
    · exact len_of_decode_play (k := (4#4, .playCubic)) (by simp [playKinds]) h
  · obtain ⟨r, hr, hmnemonic, hhit⟩ := exists_row_of_decode h
    rw [hcmd] at hhit
    obtain ⟨j, hj⟩ := exists_decode_of_hit ⟨r, hr, hhit⟩
    exact ⟨j, hj, (mnemonic_of_hit hj hr hhit).trans hmnemonic⟩

/-! ### The length field (R64) -/

theorem play_of_length_zero {interp : (Nat → Val) → Nat → Nat → Val → Val} {i : Instr} {f o : Word} {tbase : Nat}
    {s : State} (hl : s.lifecycle = .ready) : play interp i 0 f o tbase s = .next (s.fail .len0) := by
  simp only [play, hl, if_true]

/-- Settles O4: the three opcodes by `decode_of_playKind`, and check 4 of a PLAY comes first in READY. -/
theorem lengthFieldIsTheTableLength : Obligations.LengthFieldIsTheTableLength := by
  refine ⟨fun p => ⟨by have := p.cmd.isLt; omega, ?_, ?_, ?_⟩, fun f o tbase s hl i hi => ?_⟩
  · exact decode_of_playKind (k := (2#4, .playFloor)) (by simp [playKinds])
  · exact decode_of_playKind (k := (3#4, .playLinear)) (by simp [playKinds])
  · exact decode_of_playKind (k := (4#4, .playCubic)) (by simp [playKinds])
  · obtain ⟨interp, hplay⟩ := exec_eq_play hi
    rw [hplay, play_of_length_zero hl]
    rfl

/-! ### Illegal words (R69) -/

theorem decode_error_iff (p : Packet) : (∃ e, decode p = .error e) ↔ ¬ ∃ i, decode p = .ok i := by
  cases decode p <;> simp

theorem step_of_illegal {p : Packet} {e : DecodeError} {rest : List HostInput} {s : State} (hf : s.faulted = none)
    (hin : s.inputs = .command p :: rest) (hd : decode p = .error e) :
    step s = .next ((s.setInputs rest).fail .illegal) := by
  rw [step_of_inputs_cons hf hin]
  simp only [performInput, performPacket, hd, illegalPacket]

/-- Settles O5: the illegal words are those of no row, and R69's list is their complement in numbers. -/
theorem illegalWordsFailWithCauseOneAndNoOtherEffect : Obligations.IllegalWordsFailWithCauseOneAndNoOtherEffect := by
  refine ⟨fun p => ?_, fun p => ?_, fun p rest s hf hin ⟨e, hd⟩ => step_of_illegal hf hin hd⟩
  · simp only [decode_error_iff, exists_decode_iff, not_exists, not_and, Bool.not_eq_true]
  · rw [decode_error_iff, exists_decode_iff, exists_hit_iff]
    omega

/-! ### Written-out words and ignored words (R60, R65, R66) -/

/-- Settles O6: each word is decoded as it stands. -/
theorem writtenOutWordsDecode : Obligations.WrittenOutWordsDecode := by
  refine ⟨?_, ?_, ?_, ?_, ?_, ?_⟩ <;> rfl

theorem readRegister_of_ne_released {s : State} (hl : s.lifecycle ≠ .released) (i : Instr) (data : Word) :
    readRegister i data s = .next (s.respond data) := by
  rcases readRegister_cases i data s with ⟨-, he⟩ | ⟨hreleased, -⟩
  · exact he
  · exact absurd hreleased hl

/-- Settles O7: only the model fault looks at an ignored word, and it is raised in RELEASED alone. -/
theorem ignoredWordsHaveNoEffect : Obligations.IgnoredWordsHaveNoEffect := by
  intro w1 w2 w3 x1 x2 x3 s
  refine ⟨rfl, rfl, rfl, fun hl => ⟨?_, ?_, ?_, ?_⟩⟩
  · cases hs : s.lifecycle with
    | released => exact absurd hs hl
    | _ => simp only [exec, execSetsr, hs]
  · simp only [exec, execRdPhase, readRegister_of_ne_released hl]
  · simp only [exec, execRdSrrecip, readRegister_of_ne_released hl]
  · cases hs : s.lifecycle with
    | released => exact absurd hs hl
    | _ => simp only [exec, execRelease, hs]

/-! ### The response (R70) -/

/-- What R70 says of a response to the command `i`: DATA is 0 on a failure, and on the success of INIT, SETSR, CLRST
and RELEASE. -/
def AnswersAs (i : Instr) (r : Response) : Prop :=
  (r.cause ≠ 0#4 → r.data = 0x00000000#32) ∧
  (i.mnemonic ∈ ["INIT", "SETSR", "CLRST", "RELEASE"] → r.data = 0x00000000#32)

theorem answersAs_zero (i : Instr) (c : BitVec 4) : AnswersAs i ⟨0x00000000#32, c⟩ := ⟨fun _ => rfl, fun _ => rfl⟩

theorem answersAs_success {i : Instr} (hi : i.mnemonic ∉ ["INIT", "SETSR", "CLRST", "RELEASE"]) (data : Word) :
    AnswersAs i ⟨data, 0#4⟩ := ⟨fun hc => absurd rfl hc, fun hm => absurd hm hi⟩

/-- Every command that gives a next state answers: the reads and a committed PLAY with data, the others with 0. -/
theorem exec_response {i : Instr} {s t : State} (h : exec i s = .next t) :
    ∃ r, t.response = some r ∧ AnswersAs i r := by
  cases exec_next h with
  | playCommitted y w hi hl hw ht =>
    have hplay : i.mnemonic ∉ ["INIT", "SETSR", "CLRST", "RELEASE"] := by
      simp only [List.mem_cons, List.not_mem_nil, or_false] at hi
      rcases hi with hi | hi | hi <;> simp [hi]
    rcases playCommit_cases y w s with ⟨-, hc⟩ | ⟨-, hc⟩ <;> rw [ht, hc]
    · exact ⟨_, rfl, answersAs_success hplay y.bits⟩
    · exact ⟨_, rfl, answersAs_zero i _⟩
  | statusRead hi ht => exact ht ▸ ⟨_, rfl, answersAs_success (by simp [hi]) s.statusWord⟩
  | phaseRead hi hl ht => exact ht ▸ ⟨_, rfl, answersAs_success (by simp [hi]) s.phase⟩
  | srRecipRead hi hl ht => exact ht ▸ ⟨_, rfl, answersAs_success (by simp [hi]) s.srRecip⟩
  | _ => subst ‹t = _›; exact ⟨_, rfl, answersAs_zero i _⟩

/-- Settles O11: a legal packet answers as its command does, an illegal one with cause 1 and DATA 0. -/
theorem everyPacketIsAnsweredOnce : Obligations.EveryPacketIsAnsweredOnce := by
  intro p rest s t hin h
  obtain ⟨-, ⟨hin', -⟩ | ⟨q, rest', i, hin', hd, he⟩ | ⟨q, rest', e, hin', -, rfl⟩ | ⟨a, w, rest', hin', -, -⟩ |
    ⟨cut, rest', hin', -⟩⟩ := step_next h <;> rw [hin] at hin' <;> cases hin'
  · refine ⟨exec_inputs he, ?_⟩
    obtain ⟨r, hr, hfail, hsuccess⟩ := exec_response he
    refine ⟨r, hr, hfail, fun j hj => ?_⟩
    cases hd.symm.trans hj
    exact hsuccess
  · exact ⟨rfl, _, rfl, fun _ => rfl, fun _ _ _ => rfl⟩

end Sys2Proof.Machine

/-! PROOFS. The assembler (spec/30_encoding.md R74, R75): which lines are commands, lines as R74 writes them, and
decimal literals. -/

namespace Sys2Proof.Machine

/-! ### The command of a mnemonic and its operands (R74) -/

/-- The word a command is written with: `commandWord_toList`. -/
def commandWord : Instr → String
  | .init _ _ _ => "init"
  | .playFloor _ _ _ _ => "play.floor"
  | .playLinear _ _ _ _ => "play.linear"
  | .playCubic _ _ _ _ => "play.cubic"
  | .setsr _ _ _ => "setsr"
  | .rdStatus _ _ _ => "rd.status"
  | .rdPhase _ _ _ => "rd.phase"
  | .rdSrrecip _ _ _ => "rd.srrecip"
  | .clrst _ _ _ => "clrst"
  | .release _ _ _ => "release"

theorem commandWord_toList (i : Instr) : (commandWord i).toList = i.mnemonic.toList.map Char.toLower := by
  cases i <;> simp only [commandWord, Instr.mnemonic] <;> decide

/-- How the assembler reads the operands of `i`'s mnemonic: `assembleCommand_commandWord`. -/
def asmOf : Instr → List (List Char) → Except AsmError AsmItem
  | .init _ _ _ => asmRate .init
  | .playFloor _ _ _ _ => asmPlay .playFloor
  | .playLinear _ _ _ _ => asmPlay .playLinear
  | .playCubic _ _ _ _ => asmPlay .playCubic
  | .setsr _ _ _ => asmRate .setsr
  | .rdStatus _ _ _ => asmPlain .rdStatus
  | .rdPhase _ _ _ => asmPlain .rdPhase
  | .rdSrrecip _ _ _ => asmPlain .rdSrrecip
  | .clrst _ _ _ => asmPlain .clrst
  | .release _ _ _ => asmPlain .release

/-- The mnemonics are ten different words, so that each reaches its own reader, past those that stand before it. -/
theorem assembleCommand_commandWord (i : Instr) (ops : List (List Char)) :
    assembleCommand (commandWord i).toList ops = asmOf i ops := by
  cases i <;> simp only [commandWord, asmOf] <;> delta assembleCommand
  case init => exact if_pos rfl
  case setsr =>
    iterate 1 rw [if_neg (by decide)]
    exact if_pos rfl
  case playFloor =>
    iterate 2 rw [if_neg (by decide)]
    exact if_pos rfl
  case playLinear =>
    iterate 3 rw [if_neg (by decide)]
    exact if_pos rfl
  case playCubic =>
    iterate 4 rw [if_neg (by decide)]
    exact if_pos rfl
  case rdStatus =>
    iterate 5 rw [if_neg (by decide)]
    exact if_pos rfl
  case rdPhase =>
    iterate 6 rw [if_neg (by decide)]
    exact if_pos rfl
  case rdSrrecip =>
    iterate 7 rw [if_neg (by decide)]
    exact if_pos rfl
  case clrst =>
    iterate 8 rw [if_neg (by decide)]
    exact if_pos rfl
  case release =>
    iterate 9 rw [if_neg (by decide)]
    exact if_pos rfl

/-- The eleven readers answer a command only of the mnemonic they stand under. -/
theorem eq_commandWord_of_assembleCommand {m : List Char} {ops : List (List Char)} {i : Instr}
    (h : assembleCommand m ops = .ok (.instr i)) : m = (commandWord i).toList := by
  delta assembleCommand at h
  obtain ⟨hm, h⟩ | ⟨-, h⟩ := ite_eq_iff.1 h
  · obtain ⟨sr, rfl⟩ := asmRate_instr h; exact hm
  obtain ⟨hm, h⟩ | ⟨-, h⟩ := ite_eq_iff.1 h
  · obtain ⟨sr, rfl⟩ := asmRate_instr h; exact hm
  obtain ⟨hm, h⟩ | ⟨-, h⟩ := ite_eq_iff.1 h
  · obtain ⟨len, f, o, tbase, rfl, -⟩ := asmPlay_instr h; exact hm
  obtain ⟨hm, h⟩ | ⟨-, h⟩ := ite_eq_iff.1 h
  · obtain ⟨len, f, o, tbase, rfl, -⟩ := asmPlay_instr h; exact hm
  obtain ⟨hm, h⟩ | ⟨-, h⟩ := ite_eq_iff.1 h
  · obtain ⟨len, f, o, tbase, rfl, -⟩ := asmPlay_instr h; exact hm
  obtain ⟨hm, h⟩ | ⟨-, h⟩ := ite_eq_iff.1 h
  · obtain rfl := asmPlain_instr h; exact hm
  obtain ⟨hm, h⟩ | ⟨-, h⟩ := ite_eq_iff.1 h
  · obtain rfl := asmPlain_instr h; exact hm
  obtain ⟨hm, h⟩ | ⟨-, h⟩ := ite_eq_iff.1 h
  · obtain rfl := asmPlain_instr h; exact hm
  obtain ⟨hm, h⟩ | ⟨-, h⟩ := ite_eq_iff.1 h
  · obtain rfl := asmPlain_instr h; exact hm
  obtain ⟨hm, h⟩ | ⟨-, h⟩ := ite_eq_iff.1 h
  · obtain rfl := asmPlain_instr h; exact hm
  obtain ⟨-, h⟩ | ⟨-, h⟩ := ite_eq_iff.1 h
  · exact absurd h asmRaw_ne_instr
  · cases h

/-- A mnemonic and operands give a command exactly when they are its word and operands of its own reader. -/
theorem assembleCommand_instr_iff {m : List Char} {ops : List (List Char)} {i : Instr} :
    assembleCommand m ops = .ok (.instr i) ↔ m = (commandWord i).toList ∧ asmOf i ops = .ok (.instr i) := by
  rw [← assembleCommand_commandWord]
  refine ⟨fun h => ?_, fun ⟨hm, h⟩ => hm ▸ h⟩
  have hm := eq_commandWord_of_assembleCommand h
  exact ⟨hm, hm ▸ h⟩

/-! ### What the operand readers take (R74) -/

theorem asmRate_instr_iff {build : Word → Word → Word → Instr} {ops : List (List Char)} {i : Instr} :
    asmRate build ops = .ok (.instr i) ↔
      ∃ sr a, i = build sr 0x00000000#32 0x00000000#32 ∧ ops = [a] ∧ parseNumber a = .ok sr := by
  constructor
  · intro h
    unfold asmRate at h
    split at h
    · split at h
      · cases h; exact ⟨_, _, rfl, rfl, ‹_›⟩
      · cases h
    · cases h
  · rintro ⟨sr, a, rfl, rfl, ha⟩
    simp only [asmRate, ha]

theorem asmPlain_instr_iff {build : Word → Word → Word → Instr} {ops : List (List Char)} {i : Instr} :
    asmPlain build ops = .ok (.instr i) ↔ i = build 0x00000000#32 0x00000000#32 0x00000000#32 ∧ ops = [] := by
  constructor
  · intro h
    unfold asmPlain at h
    split at h
    · cases h; exact ⟨rfl, rfl⟩
    · cases h
  · rintro ⟨rfl, rfl⟩
    rfl

theorem asmPlay_instr_iff {build : Nat → Word → Word → Nat → Instr} {ops : List (List Char)} {i : Instr} :
    asmPlay build ops = .ok (.instr i) ↔
      ∃ len f o tbase a b c d, i = build len f o tbase ∧ ops = [a, b, c, d] ∧ parseInteger (2 ^ 24) a = .ok len ∧
        parseNumber b = .ok f ∧ parseNumber c = .ok o ∧ parseInteger (2 ^ 32) d = .ok tbase := by
  constructor
  · intro h
    unfold asmPlay at h
    split at h
    · split at h
      · cases h; exact ⟨_, _, _, _, _, _, _, _, rfl, rfl, ‹_›, ‹_›, ‹_›, ‹_›⟩
      all_goals cases h
    · cases h
  · rintro ⟨len, f, o, tbase, a, b, c, d, rfl, rfl, ha, hb, hc, hd⟩
    simp only [asmPlay, ha, hb, hc, hd]

/-- An assembled command is well formed: its integers are below the limits of their fields. -/
theorem wellFormed_of_asmOf {i : Instr} {ops : List (List Char)} (h : asmOf i ops = .ok (.instr i)) :
    i.wellFormed = true := by
  have hplay : ∀ {build : Nat → Word → Word → Nat → Instr},
      (∀ len f o tbase, (build len f o tbase).wellFormed = playFieldsFit len tbase) →
      asmPlay build ops = .ok (.instr i) → i.wellFormed = true := by
    intro build hbuild h
    obtain ⟨len, f, o, tbase, rfl, hlen, htbase⟩ := asmPlay_instr h
    rw [hbuild, playFieldsFit, decide_eq_true hlen, decide_eq_true htbase]
    rfl
  cases i with
  | playFloor => exact hplay (fun _ _ _ _ => rfl) h
  | playLinear => exact hplay (fun _ _ _ _ => rfl) h
  | playCubic => exact hplay (fun _ _ _ _ => rfl) h
  | _ => rfl

/-! ### A line and its command (R74, R75) -/

theorem commandWord_ne_nil (i : Instr) : (commandWord i).toList ≠ [] := by
  cases i <;> simp only [commandWord, Ne] <;> decide

/-- A line gives a command exactly when its first word and what follows do: an empty line has no first word. -/
theorem assembleLine_instr_iff {line text : List Char} {i : Instr} (htext : text = trimBlank (withoutComment line)) :
    assembleLine line = .ok (some (.instr i)) ↔
      text.takeWhile (fun c => !isBlank c) = (commandWord i).toList ∧
      asmOf i (operandsOf (text.dropWhile (fun c => !isBlank c))) = .ok (.instr i) := by
  rw [← assembleCommand_instr_iff]
  simp only [assembleLine, ← htext]
  split
  · rename_i hnil
    refine ⟨fun h => (by cases h), fun h => ?_⟩
    rw [assembleCommand_instr_iff, hnil] at h
    exact absurd h.1.symm (commandWord_ne_nil i)
  · cases assembleCommand _ _ <;> simp

/-- Settles O58: by `assembleLine_instr_iff`, with each reader said out. -/
theorem assembledCommandsDecodeBack : Obligations.AssembledCommandsDecodeBack := by
  intro line text ops i htext hops
  have hline := assembleLine_instr_iff (i := i) htext
  rw [← hops, commandWord_toList] at hline
  refine ⟨fun h => ?_, hline.trans (and_congr_right fun _ => ?_)⟩
  · have hwf := wellFormed_of_asmOf (hline.1 h).2
    exact ⟨hwf, encodedInstructionDecodesBack i hwf⟩
  · cases i <;> simp [asmOf, asmRate_instr_iff, asmPlay_instr_iff, asmPlain_instr_iff]

/-! ### Cutting a written line into words (R74; notes/assumptions/15.md) -/

/-- A word or an operand as it can be written on a line: some text without white space, commas and semicolons. -/
def PlainText (cs : List Char) : Prop := cs ≠ [] ∧ ∀ c ∈ cs, c ≠ ' ' ∧ c ≠ '\t' ∧ c ≠ ',' ∧ c ≠ ';'

theorem PlainText.not_blank {cs : List Char} (h : PlainText cs) {c : Char} (hc : c ∈ cs) : isBlank c = false := by
  obtain ⟨hspace, htab, -, -⟩ := h.2 c hc
  simp [isBlank, hspace, htab]

theorem PlainText.ne_comma {cs : List Char} (h : PlainText cs) : ∀ c ∈ cs, c ≠ ',' := by
  intro c hc
  obtain ⟨-, -, hcomma, -⟩ := h.2 c hc
  exact hcomma

theorem PlainText.ne_semicolon {cs : List Char} (h : PlainText cs) : ∀ c ∈ cs, c ≠ ';' := by
  intro c hc
  obtain ⟨-, -, -, hsemicolon⟩ := h.2 c hc
  exact hsemicolon

theorem withoutComment_append {body comment : List Char} (hbody : ∀ c ∈ body, c ≠ ';')
    (hcomment : comment = [] ∨ comment.head? = some ';') : withoutComment (body ++ comment) = body := by
  rw [withoutComment, List.takeWhile_append_of_pos (by simpa using hbody)]
  rcases hcomment with rfl | hhead
  · simp
  · obtain ⟨rest, rfl⟩ := List.head?_eq_some_iff.1 hhead
    simp

theorem trimBlank_eq_rdropWhile (cs : List Char) : trimBlank cs = (cs.dropWhile isBlank).rdropWhile isBlank := rfl

/-- Nothing is dropped from a text that begins and ends with plain text. -/
theorem trimBlank_of_ends {cs a x b y : List Char} (hfront : cs = a ++ x) (hback : cs = y ++ b) (ha : PlainText a)
    (hb : PlainText b) : trimBlank cs = cs := by
  have hdrop : cs.dropWhile isBlank = cs := by
    rw [List.dropWhile_eq_self_iff]
    intro hl
    obtain ⟨c, rest, rfl⟩ := List.exists_cons_of_ne_nil ha.1
    simp [hfront, ha.not_blank]
  rw [trimBlank_eq_rdropWhile, hdrop, List.rdropWhile_eq_self_iff]
  intro hl
  subst hback
  rw [List.getLast_append_of_ne_nil _ hb.1, hb.not_blank (List.getLast_mem hb.1)]
  decide

theorem trimBlank_plain {a : List Char} (ha : PlainText a) : trimBlank a = a :=
  trimBlank_of_ends (List.append_nil a).symm (List.nil_append a).symm ha ha

theorem trimBlank_space_cons (cs : List Char) : trimBlank (' ' :: cs) = trimBlank cs := rfl

theorem splitCommas_ne_nil (cs : List Char) : splitCommas cs ≠ [] := by
  cases cs with
  | nil => simp [splitCommas]
  | cons c cs =>
    unfold splitCommas
    split
    · simp
    · split <;> simp

theorem splitCommas_comma_cons (cs : List Char) : splitCommas (',' :: cs) = [] :: splitCommas cs := by
  obtain ⟨piece, rest, h⟩ := List.exists_cons_of_ne_nil (splitCommas_ne_nil cs)
  simp [splitCommas, h]

theorem splitCommas_cons {c : Char} {cs piece : List Char} {rest : List (List Char)} (hc : c ≠ ',')
    (h : splitCommas cs = piece :: rest) : splitCommas (c :: cs) = (c :: piece) :: rest := by
  simp [splitCommas, h, hc]

/-- A text without commas is one piece. -/
theorem splitCommas_of_no_comma {cs : List Char} (h : ∀ c ∈ cs, c ≠ ',') : splitCommas cs = [cs] := by
  induction cs with
  | nil => rfl
  | cons c cs ih =>
    obtain ⟨hc, hcs⟩ := List.forall_mem_cons.1 h
    exact splitCommas_cons hc (ih hcs)

/-- The first piece of an operand list ends at the first comma. -/
theorem splitCommas_append_comma {cs : List Char} (rest : List Char) (h : ∀ c ∈ cs, c ≠ ',') :
    splitCommas (cs ++ ',' :: rest) = cs :: splitCommas rest := by
  induction cs with
  | nil => exact splitCommas_comma_cons rest
  | cons c cs ih =>
    obtain ⟨hc, hcs⟩ := List.forall_mem_cons.1 h
    exact splitCommas_cons hc (ih hcs)

/-! ### The operands of a written line (R74) -/

/-- Operands as R74 writes them: a comma and a space between each two. -/
def writtenOperands (ops : List (List Char)) : List Char := ", ".toList.intercalate ops

theorem writtenOperands_singleton (a : List Char) : writtenOperands [a] = a := List.intercalate_singleton

theorem writtenOperands_cons_cons (a b : List Char) (ops : List (List Char)) :
    writtenOperands (a :: b :: ops) = a ++ ',' :: ' ' :: writtenOperands (b :: ops) := by
  simp [writtenOperands]

/-- The written operands, after the space that parts them from the mnemonic, are read as themselves. -/
theorem splitCommas_writtenOperands {ops : List (List Char)} (hne : ops ≠ []) (hops : ∀ a ∈ ops, PlainText a) :
    (splitCommas (' ' :: writtenOperands ops)).map trimBlank = ops := by
  induction ops with
  | nil => exact absurd rfl hne
  | cons a ops ih =>
    have htrim : trimBlank (' ' :: a) = a := trimBlank_plain (hops a List.mem_cons_self)
    have hcomma : ∀ c ∈ ' ' :: a, c ≠ ',' :=
      List.forall_mem_cons.2 ⟨by decide, (hops a List.mem_cons_self).ne_comma⟩
    cases ops with
    | nil => rw [writtenOperands_singleton, splitCommas_of_no_comma hcomma, List.map_singleton, htrim]
    | cons b ops =>
      rw [writtenOperands_cons_cons, ← List.cons_append, splitCommas_append_comma _ hcomma, List.map_cons, htrim,
        ih (List.cons_ne_nil b ops) fun x hx => hops x (List.mem_cons_of_mem a hx)]

/-- The written operands begin with the first and end with the last. -/
theorem exists_ends_of_writtenOperands {ops : List (List Char)} (hne : ops ≠ []) (hops : ∀ a ∈ ops, PlainText a) :
    ∃ a x b y, writtenOperands ops = a ++ x ∧ writtenOperands ops = y ++ b ∧ PlainText a ∧ PlainText b := by
  induction ops with
  | nil => exact absurd rfl hne
  | cons a ops ih =>
    have ha := hops a List.mem_cons_self
    cases ops with
    | nil => exact ⟨a, [], a, [], by simp [writtenOperands_singleton], writtenOperands_singleton a, ha, ha⟩
    | cons b ops =>
      obtain ⟨-, -, last, y, -, hlast, -, hplain⟩ :=
        ih (List.cons_ne_nil b ops) (fun x hx => hops x (List.mem_cons_of_mem a hx))
      refine ⟨a, _, last, a ++ ',' :: ' ' :: y, writtenOperands_cons_cons a b ops, ?_, ha, hplain⟩
      rw [writtenOperands_cons_cons, hlast]
      simp

theorem writtenOperands_no_semicolon {ops : List (List Char)} (hops : ∀ a ∈ ops, PlainText a) :
    ∀ c ∈ writtenOperands ops, c ≠ ';' := by
  induction ops with
  | nil => simp [writtenOperands]
  | cons a ops ih =>
    have ha := (hops a List.mem_cons_self).ne_semicolon
    have ih := ih fun x hx => hops x (List.mem_cons_of_mem a hx)
    cases ops with
    | nil => rwa [writtenOperands_singleton]
    | cons b ops =>
      rw [writtenOperands_cons_cons]
      exact List.forall_mem_append.2
        ⟨ha, List.forall_mem_cons.2 ⟨by decide, List.forall_mem_cons.2 ⟨by decide, ih⟩⟩⟩

/-! ### A written line (R74, R75) -/

/-- What stands after the mnemonic: nothing, or a space and the operands. -/
def operandText (ops : List (List Char)) : List Char := if ops = [] then [] else ' ' :: writtenOperands ops

theorem commandWord_plain (i : Instr) : PlainText (commandWord i).toList := by
  cases i <;> simp [commandWord, PlainText]

theorem operandsOf_operandText {ops : List (List Char)} (hops : ∀ a ∈ ops, PlainText a) :
    operandsOf (operandText ops) = ops := by
  rcases eq_or_ne ops [] with rfl | hne
  · rfl
  · obtain ⟨a, x, b, y, hfront, hback, ha, hb⟩ := exists_ends_of_writtenOperands hne hops
    have htrim : trimBlank (' ' :: writtenOperands ops) ≠ [] := by
      rw [trimBlank_space_cons, trimBlank_of_ends hfront hback ha hb, hfront]
      exact fun h => ha.1 (List.append_eq_nil_iff.1 h).1
    rw [operandText, if_neg hne, operandsOf, if_neg htrim, splitCommas_writtenOperands hne hops]

/-- The line of a word and written operands, with or without a comment, is cut into that word and these operands. -/
theorem written_line_cut {m comment : List Char} {ops : List (List Char)} (hm : PlainText m)
    (hops : ∀ a ∈ ops, PlainText a) (hcomment : comment = [] ∨ comment.head? = some ';') :
    trimBlank (withoutComment (m ++ operandText ops ++ comment)) = m ++ operandText ops := by
  have hword := hm.ne_semicolon
  rcases eq_or_ne ops [] with rfl | hne
  · rw [operandText, if_pos rfl, List.append_nil, withoutComment_append hword hcomment, trimBlank_plain hm]
  · obtain ⟨-, -, b, y, -, hback, -, hb⟩ := exists_ends_of_writtenOperands hne hops
    rw [operandText, if_neg hne, withoutComment_append _ hcomment]
    · exact trimBlank_of_ends (y := m ++ ' ' :: y) rfl (by rw [hback]; simp) hm hb
    · exact List.forall_mem_append.2
        ⟨hword, List.forall_mem_cons.2 ⟨by decide, writtenOperands_no_semicolon hops⟩⟩

/-- A word stops at the space before the operands. -/
theorem word_of_written_line {m : List Char} (hm : PlainText m) (ops : List (List Char)) :
    (m ++ operandText ops).takeWhile (fun c => !isBlank c) = m ∧
    (m ++ operandText ops).dropWhile (fun c => !isBlank c) = operandText ops := by
  have hword : ∀ c ∈ m, (!isBlank c) = true := fun c hc => by rw [hm.not_blank hc]; rfl
  rw [List.takeWhile_append_of_pos hword, List.dropWhile_append_of_pos hword, operandText]
  split
  · simp
  · simp [isBlank]

/-- A line written with a command's word and operands that its reader takes assembles to the command. -/
theorem assembleLine_written {i : Instr} {ops : List (List Char)} {line comment : List Char}
    (hops : ∀ a ∈ ops, PlainText a) (hcomment : comment = [] ∨ comment.head? = some ';')
    (hline : line = (commandWord i).toList ++ operandText ops ++ comment) (h : asmOf i ops = .ok (.instr i)) :
    assembleLine line = .ok (some (.instr i)) := by
  have hm := commandWord_plain i
  obtain ⟨hword, hrest⟩ := word_of_written_line hm ops
  rw [assembleLine_instr_iff rfl, hline, written_line_cut hm hops hcomment, hword, hrest, operandsOf_operandText hops]
  exact ⟨rfl, h⟩

theorem parseInteger_ne_nil {limit n : Nat} {cs : List Char} (h : parseInteger limit cs = .ok n) : cs ≠ [] := by
  rintro rfl
  cases h

theorem parseNumber_ne_nil {w : Word} {cs : List Char} (h : parseNumber cs = .ok w) : cs ≠ [] := by
  rintro rfl
  cases h

/-- Settles O59: `assembleLine_written` for each command, with its reader's account of the operands. -/
theorem writtenLinesAssembleToTheirCommands : Obligations.WrittenLinesAssembleToTheirCommands := by
  intro a b c d comment len tbase f o hplain ha hb hc hd hcomment
  simp only [List.mem_append] at hplain
  have hpb : PlainText b := ⟨parseNumber_ne_nil hb, fun ch h => hplain ch (.inl (.inl (.inr h)))⟩
  have hplay : ∀ x ∈ [a, b, c, d], PlainText x := by
    simp only [List.forall_mem_cons, List.not_mem_nil, false_imp_iff, implies_true, and_true]
    exact ⟨⟨parseInteger_ne_nil ha, fun ch h => hplain ch (.inl (.inl (.inl h)))⟩, hpb,
      ⟨parseNumber_ne_nil hc, fun ch h => hplain ch (.inl (.inr h))⟩,
      ⟨parseInteger_ne_nil hd, fun ch h => hplain ch (.inr h)⟩⟩
  have hrate : ∀ x ∈ [b], PlainText x := List.forall_mem_singleton.2 hpb
  have hnone : ∀ x ∈ ([] : List (List Char)), PlainText x := fun x hx => nomatch hx
  have hcut : "init ".toList = "init".toList ++ [' '] ∧ "setsr ".toList = "setsr".toList ++ [' '] ∧
      "play.floor ".toList = "play.floor".toList ++ [' '] ∧ "play.linear ".toList = "play.linear".toList ++ [' '] ∧
      "play.cubic ".toList = "play.cubic".toList ++ [' '] := by decide
  obtain ⟨hinit, hsetsr, hfloor, hlinear, hcubic⟩ := hcut
  have hfour : ∀ m : List Char,
      m ++ [' '] ++ (a ++ ", ".toList ++ b ++ ", ".toList ++ c ++ ", ".toList ++ d ++ comment) =
        m ++ operandText [a, b, c, d] ++ comment := by
    intro m
    simp [operandText, writtenOperands]
  have hone : ∀ m : List Char, m ++ [' '] ++ b ++ comment = m ++ operandText [b] ++ comment := by
    intro m
    simp [operandText, writtenOperands]
  have hzero : ∀ m : List Char, m ++ comment = m ++ operandText [] ++ comment := by
    intro m
    simp [operandText]
  refine ⟨fun line hline => ⟨?_, ?_, ?_⟩, ?_, ?_, ?_, ?_, ?_, ?_, ?_⟩
  · exact assembleLine_written hplay hcomment (by rw [hfloor, hline, hfour]; rfl)
      (asmPlay_instr_iff.2 ⟨len, f, o, tbase, a, b, c, d, rfl, rfl, ha, hb, hc, hd⟩)
  · exact assembleLine_written hplay hcomment (by rw [hlinear, hline, hfour]; rfl)
      (asmPlay_instr_iff.2 ⟨len, f, o, tbase, a, b, c, d, rfl, rfl, ha, hb, hc, hd⟩)
  · exact assembleLine_written hplay hcomment (by rw [hcubic, hline, hfour]; rfl)
      (asmPlay_instr_iff.2 ⟨len, f, o, tbase, a, b, c, d, rfl, rfl, ha, hb, hc, hd⟩)
  · exact assembleLine_written hrate hcomment (by rw [hinit, hone]; rfl) (asmRate_instr_iff.2 ⟨f, b, rfl, rfl, hb⟩)
  · exact assembleLine_written hrate hcomment (by rw [hsetsr, hone]; rfl) (asmRate_instr_iff.2 ⟨f, b, rfl, rfl, hb⟩)
  all_goals exact assembleLine_written hnone hcomment (hzero _) (asmPlain_instr_iff.2 ⟨rfl, rfl⟩)

/-! ### The digits of a decimal literal (R74) -/

theorem decDigit_digitChar {d : Nat} (hd : d < 10) : decDigit (Nat.digitChar d) = some d := by
  interval_cases d <;> rfl

theorem digitChar_ne_point {d : Nat} (hd : d < 10) : Nat.digitChar d ≠ '.' := by
  interval_cases d <;> decide

/-- Digits are read from the most significant on: `acc` moves up by one place for each. -/
theorem digitsFrom_digitChar {ds : List Nat} (hds : ∀ d ∈ ds, d < 10) (acc : Nat) :
    digitsFrom 10 decDigit acc (ds.map Nat.digitChar) = some (acc * 10 ^ ds.length + Nat.ofDigits 10 ds.reverse) := by
  induction ds generalizing acc with
  | nil => simp [digitsFrom]
  | cons d ds ih =>
    obtain ⟨hd, hds⟩ := List.forall_mem_cons.1 hds
    simp only [List.map_cons, digitsFrom, decDigit_digitChar hd, ih hds, List.reverse_cons, Nat.ofDigits_append,
      Nat.ofDigits_singleton, List.length_cons, List.length_reverse, pow_succ]
    ring_nf

theorem digitsValue_digitChar {ds : List Nat} (hne : ds ≠ []) (hds : ∀ d ∈ ds, d < 10) :
    digitsValue 10 decDigit (ds.map Nat.digitChar) = some (Nat.ofDigits 10 ds.reverse) := by
  rw [digitsValue, if_neg (by simpa using hne), digitsFrom_digitChar hds]
  simp

/-! ### A decimal literal's number (R74) -/

/-- The text of a decimal literal after its sign. -/
def literalBody (whole places : List Nat) : List Char :=
  whole.map Nat.digitChar ++ if places = [] then [] else '.' :: places.map Nat.digitChar

/-- A sign comes off the front; a digit starts neither a sign nor raw bits. -/
theorem parseNumber_literal {whole : List Nat} (hne : whole ≠ []) (hwhole : ∀ d ∈ whole, d < 10) (neg : Bool)
    (places : List Nat) : parseNumber ((if neg then ['-'] else []) ++ literalBody whole places) =
      parseDecimal neg (literalBody whole places) := by
  have hdigit : ∀ d < 10, ∀ cs, parseNumber (Nat.digitChar d :: cs) = parseDecimal false (Nat.digitChar d :: cs) := by
    intro d hd cs
    interval_cases d <;> rfl
  cases neg with
  | true => rfl
  | false =>
    obtain ⟨d, ds, rfl⟩ := List.exists_cons_of_ne_nil hne
    exact hdigit d (hwhole d List.mem_cons_self) _

/-- The digits before and after the point are one number, over the power of ten of the places. -/
theorem parseDecimal_literal {whole places : List Nat} (hne : whole ≠ []) (hwhole : ∀ d ∈ whole, d < 10)
    (hplaces : ∀ d ∈ places, d < 10) (neg : Bool) : parseDecimal neg (literalBody whole places) =
      exactPattern neg (Nat.ofDigits 10 (whole ++ places).reverse) (10 ^ places.length) := by
  have hdigits : ∀ c ∈ whole.map Nat.digitChar, (c != '.') = true := by
    intro c hc
    obtain ⟨d, hd, rfl⟩ := List.mem_map.1 hc
    exact bne_iff_ne.2 (digitChar_ne_point (hwhole d hd))
  rw [parseDecimal, literalBody, List.takeWhile_append_of_pos hdigits, List.dropWhile_append_of_pos hdigits]
  rcases eq_or_ne places [] with rfl | hplaces_ne
  · simp [digitsValue_digitChar hne hwhole]
  · have hvalue : Nat.ofDigits 10 (whole ++ places).reverse =
        Nat.ofDigits 10 whole.reverse * 10 ^ places.length + Nat.ofDigits 10 places.reverse := by
      rw [List.reverse_append, Nat.ofDigits_append, List.length_reverse]
      ring
    rw [hvalue]
    simp [hplaces_ne, digitsValue_digitChar hne hwhole, digitsValue_digitChar hplaces_ne hplaces]

/-! ### Exact or refused (R74) -/

theorem exactUnits_of_rnd_finite {neg sign : Bool} {units den mag : Nat} (h : rnd neg units den = .finite sign mag) :
    exactUnits neg units den = if mag * den = units then .ok (Val.finite sign mag).bits else .error .notExact := by
  delta exactUnits
  rw [h]

theorem exactUnits_of_rnd_inf {neg sign : Bool} {units den : Nat} (h : rnd neg units den = .inf sign) :
    exactUnits neg units den = .error .notExact := by
  delta exactUnits
  rw [h]

/-- A number is taken exactly when it is a binary32 magnitude: only such a number is its own rounding. -/
theorem exactUnits_cases (neg : Bool) (units : Nat) {den : Nat} (hd : 0 < den) :
    (∃ m, IsMag m ∧ m * den = units ∧ exactUnits neg units den = .ok (Val.finite neg m).bits) ∨
    ((∀ m, IsMag m → m * den ≠ units) ∧ exactUnits neg units den = .error .notExact) := by
  by_cases hexact : ∃ m, IsMag m ∧ m * den = units
  · obtain ⟨m, hm, rfl⟩ := hexact
    exact .inl ⟨m, hm, rfl, by rw [exactUnits_of_rnd_finite (rnd_exact hd hm), if_pos rfl]⟩
  · have hnone : ∀ m, IsMag m → m * den ≠ units := fun m hm h => hexact ⟨m, hm, h⟩
    refine .inr ⟨hnone, ?_⟩
    rcases rnd_cases neg units hd with hr | ⟨m, hr, hm⟩
    · exact exactUnits_of_rnd_inf hr
    · rw [exactUnits_of_rnd_finite hr, if_neg (hnone m hm)]

/-- Settles O60: the literal's digits are the number `num / den`, which `exactUnits` takes or refuses. -/
theorem decimalLiteralsAreNeverRounded : Obligations.DecimalLiteralsAreNeverRounded := by
  rintro neg whole places text num den hne hdigits htext rfl rfl
  obtain ⟨hwhole, hplaces⟩ := List.forall_mem_append.1 hdigits
  have hparse : parseNumber text = exactUnits neg (Nat.ofDigits 10 (whole ++ places).reverse * unitsPerOne)
      (10 ^ places.length) := by
    rw [htext, List.append_assoc]
    exact (parseNumber_literal hne hwhole neg places).trans (parseDecimal_literal hne hwhole hplaces neg)
  rw [hparse]
  generalize Nat.ofDigits 10 (whole ++ places).reverse * unitsPerOne = units
  have hden : 0 < 10 ^ places.length := by positivity
  rcases exactUnits_cases neg units hden with ⟨m, hm, hval, hok⟩ | ⟨hnone, herror⟩
  · rw [hok]
    refine ⟨fun w hw => ?_, iff_of_true ⟨_, rfl⟩ ⟨_, neg, m, f32_bits hm, hval⟩, fun h => absurd ⟨_, rfl⟩ h⟩
    cases hw
    exact ⟨m, f32_bits hm, hval⟩
  · rw [herror]
    refine ⟨fun w hw => (nomatch hw), iff_of_false (fun ⟨w, hw⟩ => nomatch hw) ?_, fun _ => rfl⟩
    rintro ⟨x, sign, m, hx, hval⟩
    exact hnone m (f32_finite_isMag hx) hval

end Sys2Proof.Machine

/-! PROOFS. The PLAY commands (spec/40_play.md R80 to R96): the checks before the commit, the sample of each
interpolator, the phase that is committed, and what a PLAY reads and writes. -/

namespace Sys2Proof.Machine

/-! ### The checks of a PLAY and its two ends (R83, R88, R89) -/

/-- The cause of the first of checks 3 to 6 of R89 that fails, none where all pass: `play_eq` ties it to `play`. -/
def playCheck (len : Nat) (f o : Word) (tbase : Nat) (s : State) : Option Cause :=
  if s.lifecycle = .uninit then some .state
  else if len = 0 then some .len0
  else if s.tmemWords < tbase + len then some .range
  else if (phasePath len f o s.phase s.srRecip).isFinite then none
  else some .numeric

/-- The state that a PLAY leaves when its checks pass: `play_eq`. -/
def playDone (interp : (Nat → Val) → Nat → Nat → Val → Val) (len : Nat) (f o : Word) (tbase : Nat) (s : State) :
    State :=
  playCommit (sampleAt interp len tbase ((phasePath len f o s.phase s.srRecip).position len) s)
    ((phasePath len f o s.phase s.srRecip).advanced len).bits s

section
variable {interp : (Nat → Val) → Nat → Nat → Val → Val} {i : Instr} {len tbase : Nat} {f o : Word} {s t : State}

/-- Outside RELEASED a PLAY fails with the cause of its first failing check, or commits. -/
theorem play_eq (hl : s.lifecycle ≠ .released) : play interp i len f o tbase s =
    .next ((playCheck len f o tbase s).elim (playDone interp len f o tbase s) s.fail) := by
  unfold play playCheck playDone
  cases hs : s.lifecycle with
  | released => exact absurd hs hl
  | uninit => rfl
  | ready =>
    simp only [reduceCtorEq, if_false]
    split_ifs <;> rfl

theorem play_of_check_fails {c : Cause} (hl : s.lifecycle ≠ .released) (hc : playCheck len f o tbase s = some c) :
    play interp i len f o tbase s = .next (s.fail c) := by
  rw [play_eq hl, hc, Option.elim_some]

theorem play_of_check_passes (hl : s.lifecycle ≠ .released) (hc : playCheck len f o tbase s = none) :
    play interp i len f o tbase s = .next (playDone interp len f o tbase s) := by
  rw [play_eq hl, hc, Option.elim_none]

/-- A PLAY that gives a next state was not in RELEASED, and has failed a check or committed. -/
theorem play_cases (h : play interp i len f o tbase s = .next t) : s.lifecycle ≠ .released ∧
    ((∃ c, playCheck len f o tbase s = some c ∧ t = s.fail c) ∨
     (playCheck len f o tbase s = none ∧ t = playDone interp len f o tbase s)) := by
  have hl : s.lifecycle ≠ .released := by
    intro hreleased
    simp [play, hreleased, raiseFault] at h
  refine ⟨hl, ?_⟩
  rw [play_eq hl] at h
  cases hc : playCheck len f o tbase s with
  | some c => rw [hc] at h; cases h; exact .inl ⟨c, rfl, rfl⟩
  | none => rw [hc] at h; cases h; exact .inr ⟨rfl, rfl⟩

theorem playCheck_of_uninit (hl : s.lifecycle = .uninit) : playCheck len f o tbase s = some .state := if_pos hl

theorem playCheck_of_ready (hl : s.lifecycle = .ready) : playCheck len f o tbase s =
    if len = 0 then some .len0 else if s.tmemWords < tbase + len then some .range
    else if (phasePath len f o s.phase s.srRecip).isFinite then none else some .numeric :=
  if_neg (by rw [hl]; exact Lifecycle.noConfusion)

theorem playCheck_eq_len0 (hl : s.lifecycle = .ready) (h0 : len = 0) : playCheck len f o tbase s = some .len0 := by
  rw [playCheck_of_ready hl, if_pos h0]

theorem playCheck_eq_range (hl : s.lifecycle = .ready) (hpos : 0 < len) (hrange : s.tmemWords < tbase + len) :
    playCheck len f o tbase s = some .range := by
  rw [playCheck_of_ready hl, if_neg hpos.ne', if_pos hrange]

theorem playCheck_eq_none (hl : s.lifecycle = .ready) (hpos : 0 < len) (hfits : tbase + len ≤ s.tmemWords)
    (hpath : (phasePath len f o s.phase s.srRecip).isFinite = true) : playCheck len f o tbase s = none := by
  rw [playCheck_of_ready hl, if_neg hpos.ne', if_neg hfits.not_gt, if_pos hpath]

theorem playCheck_eq_numeric (hl : s.lifecycle = .ready) (hpos : 0 < len) (hfits : tbase + len ≤ s.tmemWords)
    (hpath : (phasePath len f o s.phase s.srRecip).isFinite = false) :
    playCheck len f o tbase s = some .numeric := by
  rw [playCheck_of_ready hl, if_neg hpos.ne', if_neg hfits.not_gt, hpath]
  rfl

theorem pos_of_playCheck_eq_none (h : playCheck len f o tbase s = none) : 0 < len := by
  unfold playCheck at h
  split_ifs at h
  exact Nat.pos_of_ne_zero ‹_›

/-- Cause 7 is no check's: it is answered after the commit. -/
theorem code_of_playCheck_ne_seven {c : Cause} (h : playCheck len f o tbase s = some c) : c.code ≠ 7#4 := by
  unfold playCheck at h
  split_ifs at h <;> cases h <;> decide

end

/-- Each of the three PLAY commands is `play` with one of the three interpolators. -/
theorem exec_eq_play_interpolator {len tbase : Nat} {f o : Word} {i : Instr}
    (hi : i ∈ [Instr.playFloor len f o tbase, .playLinear len f o tbase, .playCubic len f o tbase]) :
    ∃ interp ∈ [interpFloor, interpLinear, interpCubic], ∀ s, exec i s = play interp i len f o tbase s := by
  simp only [List.mem_cons, List.not_mem_nil, or_false] at hi
  rcases hi with rfl | rfl | rfl
  · exact ⟨interpFloor, by simp, fun _ => rfl⟩
  · exact ⟨interpLinear, by simp, fun _ => rfl⟩
  · exact ⟨interpCubic, by simp, fun _ => rfl⟩

theorem exec_playFloor (len tbase : Nat) (f o : Word) (s : State) : exec (.playFloor len f o tbase) s =
    play interpFloor (.playFloor len f o tbase) len f o tbase s := rfl

theorem exec_playLinear (len tbase : Nat) (f o : Word) (s : State) : exec (.playLinear len f o tbase) s =
    play interpLinear (.playLinear len f o tbase) len f o tbase s := rfl

theorem exec_playCubic (len tbase : Nat) (f o : Word) (s : State) : exec (.playCubic len f o tbase) s =
    play interpCubic (.playCubic len f o tbase) len f o tbase s := rfl

/-- Settles O27: checks 3 to 5 in their order, each failing with its cause. -/
theorem playReportsTheFirstFailingCheck : Obligations.PlayReportsTheFirstFailingCheck := by
  intro len tbase f o s i hi
  obtain ⟨interp, hplay⟩ := exec_eq_play hi
  rw [hplay]
  refine ⟨fun hl => ?_, fun hl h0 => ?_, fun hl hpos hrange => ?_⟩
  · exact play_of_check_fails (by simp [hl]) (playCheck_of_uninit hl)
  · exact play_of_check_fails (by simp [hl]) (playCheck_eq_len0 hl h0)
  · exact play_of_check_fails (by simp [hl]) (playCheck_eq_range hl hpos hrange)

theorem phasePath_isFinite_eq_false_iff (len : Nat) (f o phase srRecip : Word) :
    (phasePath len f o phase srRecip).isFinite = false ↔
      (phaseIncrement len f srRecip).isFinite = false ∨ (phaseOffset len o).isFinite = false ∨
      (fadd (f32 phase) (phaseOffset len o)).isFinite = false ∨
      (fadd (f32 phase) (phaseIncrement len f srRecip)).isFinite = false := by
  simp only [PhasePath.isFinite, phasePath, Bool.and_eq_false_iff, or_assoc]

theorem isFinite_fmul_of_left {a : Val} (h : a.isFinite = false) (b : Val) : (fmul a b).isFinite = false := by
  obtain ⟨-, -, hmul⟩ := nonFiniteValuesPropagate a b (.inl h)
  exact hmul

/-- A product with a pattern that is an infinity or a NaN is not finite. -/
theorem isFinite_fmul_of_exponent {w : Word} (h : w.extractLsb' 23 8 = 255#8) (v : Val) :
    (fmul (f32 w) v).isFinite = false :=
  isFinite_fmul_of_left (Bool.eq_false_iff.2 fun hfin => (f32_isFinite_iff w).1 hfin h) v

/-- Settles O28: any of the four values fails check 6, and a non-finite operand makes its product non-finite. -/
theorem nonFinitePhaseArithmeticFailsWithCauseSix : Obligations.NonFinitePhaseArithmeticFailsWithCauseSix := by
  rintro len tbase f o s inc off sum next hl hpos hfits rfl rfl rfl rfl hbad i hi
  obtain ⟨interp, hplay⟩ := exec_eq_play hi
  have hpath : (phasePath len f o s.phase s.srRecip).isFinite = false := by
    rw [phasePath_isFinite_eq_false_iff]
    rcases hbad with h | h | h | h | h | h
    · exact .inl h
    · exact .inr (.inl h)
    · exact .inr (.inr (.inl h))
    · exact .inr (.inr (.inr h))
    · exact .inl (isFinite_fmul_of_left (isFinite_fmul_of_exponent h _) _)
    · exact .inr (.inl (isFinite_fmul_of_exponent h _))
  rw [hplay]
  exact play_of_check_fails (by simp [hl]) (playCheck_eq_numeric hl hpos hfits hpath)

/-! ### What a PLAY answers and writes (R88, R89) -/

theorem playCommit_response (y : Val) (w : Word) (s : State) : (playCommit y w s).response =
    some (if y.isFinite then ⟨y.bits, 0#4⟩ else ⟨0x00000000#32, 7#4⟩) := by
  rcases playCommit_cases y w s with ⟨hy, h⟩ | ⟨hy, h⟩ <;> rw [h, hy] <;> rfl

/-- The commit in the terms of the statements. -/
theorem playCommit_eq_afterSample {y : Val} {data : Word} (h : y.isFinite = true → y.bits = data) (w : Word)
    (s : State) : playCommit y w s = s.afterSample w y data := by
  unfold State.afterSample
  rcases playCommit_cases y w s with ⟨hy, hc⟩ | ⟨hy, hc⟩ <;> rw [hc, hy]
  · rw [h hy]; rfl
  · rfl

/-- An interpolated sample is a binary32 value: an entry, or the result of an operation. -/
theorem sampleAt_rep {interp : (Nat → Val) → Nat → Nat → Val → Val}
    (h : interp ∈ [interpFloor, interpLinear, interpCubic]) (len tbase : Nat) (pos : Val) (s : State) :
    (sampleAt interp len tbase pos s).Rep := by
  simp only [List.mem_cons, List.not_mem_nil, or_false] at h
  rcases h with rfl | rfl | rfl
  · exact f32_rep _
  · exact atIntegerPosition_rep (fadd_rep _ _)
  · exact atIntegerPosition_rep (fadd_rep _ _)

/-- Settles O31: a failed check answers DATA 0, a commit a finite binary32 value or, with cause 7, DATA 0. -/
theorem noNanOrInfinityLeavesThePlay : Obligations.NoNanOrInfinityLeavesThePlay := by
  intro len tbase f o s t i hi h
  obtain ⟨interp, hinterp, hplay⟩ := exec_eq_play_interpolator hi
  have hzero : (f32 0x00000000#32).isFinite = true := by decide
  obtain ⟨-, ⟨c, hc, rfl⟩ | ⟨-, rfl⟩⟩ := play_cases (hplay s ▸ h)
  · exact ⟨_, State.fail_response s c, hzero, fun h7 => absurd h7 (code_of_playCheck_ne_seven hc)⟩
  · refine ⟨_, playCommit_response _ _ _, ?_⟩
    split
    · rename_i hy
      refine ⟨?_, fun h7 => absurd (show (0#4 : BitVec 4) = 7#4 from h7) (by decide)⟩
      rw [(sampleAt_rep hinterp _ _ _ _).f32_bits hy, hy]
    · exact ⟨hzero, fun _ => ⟨rfl, playCommit_phase _ _ _⟩⟩

/-- Settles O32: by the two ends of a PLAY, and the commit by its two answers. -/
theorem playWritesOnlyPhaseAndStatus : Obligations.PlayWritesOnlyPhaseAndStatus := by
  intro len tbase f o s t i hi h
  obtain ⟨interp, hplay⟩ := exec_eq_play hi
  obtain ⟨-, ⟨c, -, rfl⟩ | ⟨-, rfl⟩⟩ := play_cases (hplay s ▸ h)
  · exact ⟨_, State.fail_response s c, rfl, fun h0 => absurd h0 c.code_ne_zero, fun _ _ => rfl⟩
  · unfold playDone
    rcases playCommit_cases _ _ s with ⟨-, hc⟩ | ⟨-, hc⟩ <;> rw [hc]
    · exact ⟨_, rfl, rfl, fun _ => ⟨rfl, rfl⟩, fun h0 => absurd rfl h0⟩
    · exact ⟨_, rfl, rfl, fun h0 => absurd h0 (by decide), fun _ h7 => absurd rfl h7⟩

/-! ### The sample of a PLAY that passes its checks (R84 to R86) -/

section
variable {len tbase : Nat} {f o : Word} {s : State} {inc off sum next : Val}

theorem PlayPasses.phasePath_eq (h : PlayPasses len f o tbase s inc off sum next) :
    phasePath len f o s.phase s.srRecip = ⟨inc, off, sum, next⟩ := by
  obtain ⟨-, -, -, -, rfl, rfl, rfl, rfl, -⟩ := h
  rfl

theorem PlayPasses.check_passes (h : PlayPasses len f o tbase s inc off sum next) :
    playCheck len f o tbase s = none := by
  refine playCheck_eq_none h.isReady h.lenPos h.tableFits ?_
  rw [h.phasePath_eq]
  simp [PhasePath.isFinite, h.incFinite, h.offFinite, h.sumFinite, h.nextFinite]

/-- A PLAY that passes its checks commits `wrap(n, L)` and the sample at `wrap(s, L)`. -/
theorem PlayPasses.play_eq (h : PlayPasses len f o tbase s inc off sum next)
    (interp : (Nat → Val) → Nat → Nat → Val → Val) (i : Instr) : play interp i len f o tbase s =
    .next (playCommit (sampleAt interp len tbase (wrap sum.units len) s) (wrap next.units len).bits s) := by
  rw [play_of_check_passes (by simp [h.isReady]) h.check_passes, playDone, h.phasePath_eq]
  rfl

end

/-- Settles O24: the sample is the entry's value, and a finite value has the pattern it was read from. -/
theorem playFloorAnswersTheStoredEntry : Obligations.PlayFloorAnswersTheStoredEntry := by
  intro len tbase f o s inc off sum next h
  rw [exec_playFloor, h.play_eq]
  exact congrArg _ (playCommit_eq_afterSample bits_f32 _ s)

theorem position_phasePath (len : Nat) (f o phase srRecip : Word) : (phasePath len f o phase srRecip).position len =
    wrap (fadd (f32 phase) (fmul (f32 o) (ofInt len))).units len := rfl

theorem tableIndex_of_natCast (len i k : Nat) : tableIndex len i k = (i + k) % len := by
  unfold tableIndex
  norm_cast

theorem tableIndex_neg_one {len : Nat} (hpos : 0 < len) (i : Nat) : tableIndex len i (-1) = (i + len - 1) % len := by
  have hshift : (i : Int) + -1 + len = ((i + len - 1 : Nat) : Int) := by omega
  unfold tableIndex
  rw [← Int.add_emod_right, hshift]
  norm_cast

theorem tableIndex_zero {len i : Nat} (h : i < len) : tableIndex len i 0 = i :=
  (tableIndex_of_natCast len i 0).trans (Nat.mod_eq_of_lt h)

theorem sampleAt_linear (len tbase : Nat) (pos : Val) (s : State) : sampleAt interpLinear len tbase pos s =
    atIntegerPosition (frac pos) (fadd (f32 (s.memRead (tbase + ifloor pos)))
      (fmul (frac pos) (fsub (f32 (s.memRead (tbase + (ifloor pos + 1) % len)))
        (f32 (s.memRead (tbase + ifloor pos)))))) := by
  rw [← tableIndex_of_natCast len (ifloor pos) 1]
  rfl

theorem sampleAt_cubic {len : Nat} (hpos : 0 < len) (tbase : Nat) (pos : Val) (s : State) :
    sampleAt interpCubic len tbase pos s = atIntegerPosition (frac pos) (catmullRom
      (f32 (s.memRead (tbase + (ifloor pos + len - 1) % len))) (f32 (s.memRead (tbase + ifloor pos)))
      (f32 (s.memRead (tbase + (ifloor pos + 1) % len))) (f32 (s.memRead (tbase + (ifloor pos + 2) % len)))
      (frac pos)) := by
  rw [← tableIndex_neg_one hpos, ← tableIndex_of_natCast len (ifloor pos) 1, ← tableIndex_of_natCast len (ifloor pos) 2]
  rfl

/-! ### Integer positions (R85, R86, R95; notes/assumptions/20.md) -/

theorem fadd_comm (a b : Val) : fadd a b = fadd b a := by
  cases a with
  | nan => cases b <;> rfl
  | inf x =>
    cases b with
    | inf y => cases x <;> cases y <;> rfl
    | _ => rfl
  | finite x j =>
    cases b with
    | finite y k => simp only [fadd, add_comm, Bool.and_comm]
    | _ => rfl

theorem fmul_comm (a b : Val) : fmul a b = fmul b a := by
  cases a with
  | nan => cases b <;> rfl
  | inf x => cases b <;> simp only [fmul, bne_comm]
  | finite x j => cases b <;> simp only [fmul, mul_comm, bne_comm]

/-- A zero added to a binary32 value other than -0.0 leaves it. -/
theorem fadd_zero_of_ne_negZero {x sign : Bool} {m : Nat} (hm : IsMag m) (hne : Val.finite x m ≠ .finite true 0) :
    fadd (.finite x m) (.finite sign 0) = .finite x m := by
  have hzero : (Val.finite sign 0).units = 0 := by cases sign <;> rfl
  rw [fadd_finite, hzero, add_zero, units_finite_natAbs, rnd_exact_one hm]
  congr 1
  rcases Nat.eq_zero_or_pos m with rfl | hpos
  · cases x with
    | true => exact absurd rfl hne
    | false => simp [Val.units]
  · have hunits : (Val.finite x m).units ≠ 0 := by
      rw [← Int.natAbs_ne_zero, units_finite_natAbs]
      exact hpos.ne'
    rw [if_neg hunits]
    exact Bool.eq_iff_iff.2 (decide_eq_true_iff.trans (units_finite_neg_iff hpos.ne'))

theorem fadd_negZero_zero (sign : Bool) : fadd (.finite true 0) (.finite sign 0) = .finite sign 0 := by
  cases sign <;> rfl

/-- The product of a finite value and a zero is a zero. -/
theorem fmul_zero_left {v : Val} (hv : v.isFinite = true) (sign : Bool) :
    ∃ sign', fmul (.finite sign 0) v = .finite sign' 0 := by
  obtain ⟨y, k, rfl⟩ := exists_finite_of_isFinite hv
  exact ⟨sign != y, by simp only [fmul, Nat.zero_mul, rnd_zero _ unitsPerOne_pos]⟩

/-- At an integer position a curve with a finite slope passes through an entry other than -0.0. -/
theorem fadd_fmul_zero_of_ne_negZero {a v : Val} (ha : a.Rep) (hfin : a.isFinite = true) (hv : v.isFinite = true)
    (hne : a ≠ .finite true 0) : fadd a (fmul (.finite false 0) v) = a := by
  obtain ⟨sign, hprod⟩ := fmul_zero_left hv false
  obtain ⟨x, m, rfl⟩ := exists_finite_of_isFinite hfin
  rw [hprod, fadd_zero_of_ne_negZero ha hne]

/-- At an integer position a -0.0 entry comes back as +0.0, whatever the sign of the vanishing term. -/
theorem atIntegerPosition_negZero {v : Val} (hv : v.isFinite = true) :
    atIntegerPosition (.finite false 0) (fadd (.finite true 0) (fmul (.finite false 0) v)) = .finite false 0 := by
  obtain ⟨sign, hprod⟩ := fmul_zero_left hv false
  rw [hprod, fadd_negZero_zero]
  cases sign <;> rfl

/-- A finite result at an integer position has a finite entry and a finite slope. -/
theorem finite_entry_and_slope {a v : Val} (h : (fadd a (fmul (.finite false 0) v)).isFinite = true) :
    a.isFinite = true ∧ v.isFinite = true :=
  have ⟨ha, hprod⟩ := finite_operands_of_fadd h
  ⟨ha, (finite_operands_of_fmul hprod).2⟩

/-- The rule of integer positions changes a finite result of a -0.0 entry only. -/
theorem atIntegerPosition_curve {fr a v : Val} (ha : a.Rep) :
    (¬ (fr = .finite false 0 ∧ a = .finite true 0 ∧ (fadd a (fmul fr v)).isFinite = true) →
      atIntegerPosition fr (fadd a (fmul fr v)) = fadd a (fmul fr v)) ∧
    (fr = .finite false 0 → a = .finite true 0 → (fadd a (fmul fr v)).isFinite = true →
      atIntegerPosition fr (fadd a (fmul fr v)) = .finite false 0) := by
  constructor
  · intro hnot
    rcases atIntegerPosition_cases fr (fadd a (fmul fr v)) with ⟨-, he⟩ | ⟨rfl, hneg, -⟩
    · exact he
    · have hfin : (fadd a (fmul (.finite false 0) v)).isFinite = true := by rw [hneg]; rfl
      obtain ⟨hafin, hv⟩ := finite_entry_and_slope hfin
      have hne : a ≠ .finite true 0 := fun haneg => hnot ⟨rfl, haneg, hfin⟩
      exact absurd ((fadd_fmul_zero_of_ne_negZero ha hafin hv hne).symm.trans hneg) hne
  · rintro rfl rfl hfin
    exact atIntegerPosition_negZero (finite_entry_and_slope hfin).2

/-- A PLAY whose sample is a curve through `a` commits the curve's value, or +0.0 for a -0.0 entry. -/
theorem playCommit_curve {fr a v y : Val} (ha : a.Rep) (hy : y = fadd a (fmul fr v)) (w : Word) (s : State) :
    (¬ (fr = .finite false 0 ∧ a = .finite true 0 ∧ y.isFinite = true) →
      playCommit (atIntegerPosition fr y) w s = s.afterSample w y y.bits) ∧
    (fr = .finite false 0 → a = .finite true 0 → y.isFinite = true →
      playCommit (atIntegerPosition fr y) w s = s.afterSample w (.finite false 0) 0x00000000#32) := by
  subst hy
  obtain ⟨hcurve, hzero⟩ := atIntegerPosition_curve (fr := fr) (v := v) ha
  refine ⟨fun hnot => ?_, fun hfr hneg hfin => ?_⟩
  · rw [hcurve hnot]
    exact playCommit_eq_afterSample (fun _ => rfl) w s
  · rw [hzero hfr hneg hfin]
    exact playCommit_eq_afterSample (fun _ => by decide) w s

/-- The slope of the cubic curve from its middle point, in the Horner order of R86: `catmullRom_eq`. -/
def cubicSlope (c1 c2 c3 fr : Val) : Val := fadd (fmul (fadd (fmul c3 fr) c2) fr) c1

/-- The Catmull-Rom value in the shape of `playCommit_curve`: the middle point plus the position times a slope. -/
theorem catmullRom_eq {p0 p1 p2 p3 c1 c2 c3 : Val} (fr : Val) (h1 : c1 = fmul cHalf (fsub p2 p0))
    (h2 : c2 = fsub (fadd (fsub p0 (fmul cTwoAndHalf p1)) (fmul cTwo p2)) (fmul cHalf p3))
    (h3 : c3 = fadd (fmul cHalf (fsub p3 p0)) (fmul cOneAndHalf (fsub p1 p2))) :
    catmullRom p0 p1 p2 p3 fr = fadd p1 (fmul fr (cubicSlope c1 c2 c3 fr)) := by
  rw [fadd_comm, fmul_comm, h1, h2, h3]
  rfl

/-- Settles O25: the line is its entry plus the position times a slope. -/
theorem playLinearAnswersTheLineThroughTwoEntries : Obligations.PlayLinearAnswersTheLineThroughTwoEntries := by
  rintro len tbase f o s inc off sum next h i fr a b y rfl rfl rfl rfl hy
  obtain ⟨hcurve, hzero⟩ := playCommit_curve (f32_rep _) hy (wrap next.units len).bits s
  rw [exec_playLinear, h.play_eq, sampleAt_linear, ← hy]
  exact ⟨fun hnot => congrArg _ (hcurve hnot), fun hfr hneg hfin => congrArg _ (hzero hfr hneg hfin)⟩

/-- Settles O26: the curve is its middle point plus the position times a slope. -/
theorem playCubicAnswersTheCatmullRomValue : Obligations.PlayCubicAnswersTheCatmullRomValue := by
  intro len tbase f o s inc off sum next h i fr p0 p1 p2 p3 c1 c2 c3 y hi hfr hp0 hp1 hp2 hp3 hc1 hc2 hc3 hy
  have hslope := catmullRom_eq fr hc1 hc2 hc3
  have hcat : y = catmullRom p0 p1 p2 p3 fr := by rw [hslope, hy, fadd_comm, fmul_comm]; rfl
  obtain ⟨hcurve, hzero⟩ := playCommit_curve (hp1 ▸ f32_rep _) (hcat.trans hslope) (wrap next.units len).bits s
  rw [exec_playCubic, h.play_eq, sampleAt_cubic h.lenPos, ← hi, ← hfr, ← hp0, ← hp1, ← hp2, ← hp3, ← hcat]
  exact ⟨fun hnot => congrArg _ (hcurve hnot), fun hfr hneg hfin => congrArg _ (hzero hfr hneg hfin)⟩

/-- The sample of a curve with a finite slope at an integer position. -/
theorem atIntegerPosition_line {a v : Val} (ha : a.Rep) (hfin : a.isFinite = true) (hv : v.isFinite = true) :
    atIntegerPosition (.finite false 0) (fadd a (fmul (.finite false 0) v)) =
      if a = .finite true 0 then .finite false 0 else a := by
  split
  · subst a
    exact atIntegerPosition_negZero hv
  · rename_i hne
    rw [fadd_fmul_zero_of_ne_negZero ha hfin hv hne]
    exact if_neg fun h => hne h.2

/-- Adding a finite value to a vanishing term gives a finite value. -/
theorem isFinite_fadd_fmul_zero {a v : Val} (ha : a.Rep) (hfin : a.isFinite = true) (hv : v.isFinite = true) :
    (fadd (fmul v (.finite false 0)) a).isFinite = true := by
  rw [fmul_comm, fadd_comm]
  by_cases hneg : a = .finite true 0
  · obtain ⟨sign, hprod⟩ := fmul_zero_left hv false
    rw [hneg, hprod, fadd_negZero_zero]
    rfl
  · rwa [fadd_fmul_zero_of_ne_negZero ha hfin hv hneg]

theorem isFinite_cubicSlope_zero {c1 c2 c3 : Val} (hr1 : c1.Rep) (hr2 : c2.Rep) (h1 : c1.isFinite = true)
    (h2 : c2.isFinite = true) (h3 : c3.isFinite = true) : (cubicSlope c1 c2 c3 (.finite false 0)).isFinite = true :=
  isFinite_fadd_fmul_zero hr1 h1 (isFinite_fadd_fmul_zero hr2 h2 h3)

/-- A pattern is that of -0.0 exactly when its value is. -/
theorem f32_eq_negZero_iff (w : Word) : f32 w = .finite true 0 ↔ w = 0x80000000#32 := by
  constructor
  · intro h
    have hbits : (f32 w).bits = w := bits_f32 (by rw [h]; rfl)
    rw [← hbits, h]
    decide
  · rintro rfl
    decide

/-- A PLAY whose sample is the entry at the read position, +0.0 for -0.0, does what PLAY.FLOOR does but for that
answer. -/
theorem play_eq_of_floor {interp : (Nat → Val) → Nat → Nat → Val → Val} {len tbase : Nat} {f o w : Word}
    {s t u : State} {pos : Val} {i j : Instr} (hpos : pos = (phasePath len f o s.phase s.srRecip).position len)
    (hw : w = s.memRead (tbase + ifloor pos))
    (hsample : sampleAt interp len tbase pos s = if f32 w = .finite true 0 then .finite false 0 else f32 w)
    (h : play interpFloor j len f o tbase s = .next t) (hkept : w ≠ 0x80000000#32 → u = t)
    (hzeroed : w = 0x80000000#32 →
      u = { t with response := t.response.map (fun r => { r with data := 0x00000000#32 }) }) :
    play interp i len f o tbase s = .next u := by
  obtain ⟨hl, ⟨c, hc, rfl⟩ | ⟨hc, rfl⟩⟩ := play_cases h
  · have hu : u = s.fail c := by
      by_cases hneg : w = 0x80000000#32
      · exact hzeroed hneg
      · exact hkept hneg
    rw [hu, play_of_check_fails hl hc]
  · have hfloor : sampleAt interpFloor len tbase pos s = f32 w := hw ▸ rfl
    rw [play_of_check_passes hl hc]
    unfold playDone at hkept hzeroed ⊢
    rw [← hpos, hfloor] at hkept hzeroed
    rw [← hpos, hsample]
    by_cases hneg : w = 0x80000000#32
    · have hval := (f32_eq_negZero_iff w).2 hneg
      rw [hzeroed hneg, hval]
      rfl
    · rw [hkept hneg, if_neg (mt (f32_eq_negZero_iff w).1 hneg)]

/-- Settles O35: both curves meet `play_eq_of_floor`, by `atIntegerPosition_line`. -/
theorem kindsAgreeAtIntegerPositions : Obligations.KindsAgreeAtIntegerPositions := by
  intro len tbase i f o s t p0 p1 p2 p3 hl hpos hlen hfrac hi hp0 hp1 hp2 hp3 hfin h u hkept hzeroed
  have hrep : p1.Rep := hp1 ▸ f32_rep _
  rw [← position_phasePath len f o s.phase s.srRecip] at hfrac hi
  rw [hi] at hkept hzeroed
  refine ⟨fun hslope => play_eq_of_floor rfl rfl ?_ h hkept hzeroed,
    fun h1 h2 h3 => play_eq_of_floor rfl rfl ?_ h hkept hzeroed⟩
  · rw [sampleAt_linear, hfrac, ← hi, ← hp1, ← hp2]
    exact atIntegerPosition_line hrep hfin hslope
  · rw [sampleAt_cubic hpos, hfrac, ← hi, ← hp0, ← hp1, ← hp2, ← hp3, catmullRom_eq _ rfl rfl rfl]
    exact atIntegerPosition_line hrep hfin
      (isFinite_cubicSlope_zero (fmul_rep _ _) (fsub_rep _ _) h1 h2 h3)


/-! ### The committed phase (R15, R87) -/

theorem isMag_units_of_rep {v : Val} (h : v.Rep) : IsMag v.units.natAbs := by
  cases v with
  | finite neg m => rwa [units_finite_natAbs]
  | inf neg => exact isMag_zero
  | nan => exact isMag_zero

/-- The remainder of a representable magnitude is exact. -/
theorem wrap_of_isMag {m len : Nat} (hm : IsMag m) (hpos : 0 < len) (hlen : len < 2 ^ 24) :
    wrap m len = .finite false (m % (len * unitsPerOne)) := by
  have hexact := wrapOfANonNegativeValueIsExact (Val.finite false m).bits len m hpos hlen (f32_bits hm)
  rwa [f32_bits hm] at hexact

/-- `wrap` is the rounded remainder, with +0.0 in place of the length. -/
theorem wrap_eq_roundedMag (x : Int) {len : Nat} (hpos : 0 < len) (hlen : len < 2 ^ 24) :
    wrap x len = if roundedMag (x % (len * unitsPerOne : Nat)).toNat 1 = len * unitsPerOne then .finite false 0
      else .finite false (roundedMag (x % (len * unitsPerOne : Nat)).toNat 1) := by
  have hlength : 0 < len * unitsPerOne := Nat.mul_pos hpos unitsPerOne_pos
  have hbelow := Int.emod_lt_of_pos x (b := (len * unitsPerOne : Nat)) (by omega)
  have hbound : len * unitsPerOne ≤ 1 * ((2 ^ 25 - 1) * 2 ^ 252) := calc
    len * unitsPerOne ≤ 2 ^ 24 * unitsPerOne := Nat.mul_le_mul_right _ hlen.le
    _ ≤ 1 * ((2 ^ 25 - 1) * 2 ^ 252) := by decide
  have hround := rnd_eq_finite false Nat.one_pos
    (show (x % (len * unitsPerOne : Nat)).toNat < 1 * ((2 ^ 25 - 1) * 2 ^ 252) by omega)
  simp only [wrap, hround, ofInt, Val.finite.injEq, true_and]

/-- No binary32 value is nearer to a natural number of units than its rounded magnitude. -/
theorem roundedMag_one_nearest (n : Nat) {c : Word} (hc : (f32 c).isFinite = true) :
    |(roundedMag n 1 : Int) - n| ≤ |(f32 c).units - n| := by
  have hnear := (signed_roundedMag_nearest (num := n) (neg := false) Nat.one_pos
    (fun _ => (decide_eq_false (Int.natCast_nonneg n).not_gt).symm) hc).1
  simpa [Val.units] using hnear

/-- `wrap` is the binary32 value nearest to the exact remainder, with +0.0 in place of the length. -/
theorem wrap_nearest (x : Int) {len : Nat} (hpos : 0 < len) (hlen : len < 2 ^ 24) :
    ∃ m y : Nat, wrap x len = .finite false m ∧ (y = m ∨ (m = 0 ∧ y = len * unitsPerOne)) ∧
      ∀ c : Word, (f32 c).isFinite = true →
        |(y : Int) - x % (len * unitsPerOne : Nat)| ≤ |(f32 c).units - x % (len * unitsPerOne : Nat)| := by
  have hlength : 0 < len * unitsPerOne := Nat.mul_pos hpos unitsPerOne_pos
  have hremainder : ((x % (len * unitsPerOne : Nat)).toNat : Int) = x % (len * unitsPerOne : Nat) :=
    Int.toNat_of_nonneg (Int.emod_nonneg x (by omega))
  have hnear := fun (c : Word) => roundedMag_one_nearest (x % (len * unitsPerOne : Nat)).toNat (c := c)
  rw [hremainder] at hnear
  rw [wrap_eq_roundedMag x hpos hlen]
  split
  · exact ⟨0, _, rfl, .inr ⟨rfl, ‹_›⟩, hnear⟩
  · exact ⟨_, _, rfl, .inl rfl, hnear⟩

/-- Settles O29: the committed phase is `wrap(n, L)`, exact for n >= 0 and nearest always. -/
theorem phaseAdvancesModuloTheLength : Obligations.PhaseAdvancesModuloTheLength := by
  intro len tbase f o s inc off sum next h i hi
  obtain ⟨interp, hplay⟩ := exec_eq_play hi
  obtain ⟨m, hwrap, hm, hlt⟩ := wrap_cases next.units h.lenPos h.lenFits
  obtain ⟨m', y, hwrap', hy, hnear⟩ := wrap_nearest next.units h.lenPos h.lenFits
  cases hwrap.symm.trans hwrap'
  refine ⟨_, m, (hplay s).trans (h.play_eq interp i), ?_, hlt, fun hnonneg => ?_, y, hy, hnear⟩
  · rw [playCommit_phase, hwrap, f32_bits hm]
  · have hmag : IsMag next.units.natAbs := isMag_units_of_rep (h.nextIs ▸ fadd_rep _ _)
    have hexact := wrap_of_isMag hmag h.lenPos h.lenFits
    rw [Int.natAbs_of_nonneg hnonneg, hwrap] at hexact
    cases hexact
    rw [Int.natCast_mod, Int.natAbs_of_nonneg hnonneg]

/-! ### The words a PLAY reads (R96) -/

theorem playAddress_eq (len : Nat) (f o : Word) (tbase : Nat) (s : State) (k : Int) : playAddress len o tbase s k =
    tbase + tableIndex len (ifloor ((phasePath len f o s.phase s.srRecip).position len)) k := rfl

theorem tableIndex_lt {len : Nat} (hpos : 0 < len) (i : Nat) (k : Int) : tableIndex len i k < len := by
  have hlt := Int.emod_lt_of_pos ((i : Int) + k) (Int.natCast_pos.2 hpos)
  unfold tableIndex
  omega

theorem playCommit_tmem (y : Val) (w : Word) (s : State) (m n : List Host.Cell) :
    playCommit y w { s with mem := m, tmemInit := n } = { playCommit y w s with mem := m, tmemInit := n } := by
  unfold playCommit
  split <;> rfl

/-- Only a commit reads TMEM: with another TMEM a failing PLAY does the same, and so does a commit whose sample is the
same. -/
theorem play_of_tmem_replaced {interp : (Nat → Val) → Nat → Nat → Val → Val} {i : Instr} {len tbase : Nat}
    {f o : Word} {s s' t t' : State} {m n : List Host.Cell} (hs : s' = { s with mem := m, tmemInit := n })
    (ht : t' = { t with mem := m, tmemInit := n }) (h : play interp i len f o tbase s = .next t)
    (hsample : 0 < len → t = playDone interp len f o tbase s →
      sampleAt interp len tbase ((phasePath len f o s.phase s.srRecip).position len) s' =
        sampleAt interp len tbase ((phasePath len f o s.phase s.srRecip).position len) s) :
    play interp i len f o tbase s' = .next t' := by
  have hcheck : playCheck len f o tbase s' = playCheck len f o tbase s := hs ▸ rfl
  have hlife : s'.lifecycle = s.lifecycle := hs ▸ rfl
  obtain ⟨hl, ⟨c, hc, rfl⟩ | ⟨hc, hdone⟩⟩ := play_cases h
  · rw [play_of_check_fails (hlife ▸ hl) (hcheck.trans hc), hs, ht]
    rfl
  · have hsame := hsample (pos_of_playCheck_eq_none hc) hdone
    rw [play_of_check_passes (hlife ▸ hl) (hcheck.trans hc), ht, hdone]
    subst hs
    exact congrArg _ ((congrArg (playCommit · _ _) hsame).trans (playCommit_tmem ..))

section
variable {len tbase : Nat} {o : Word} {s s' : State}

/-- Words that agree at an address of `playAddress` are entries that agree at its index. -/
theorem tableEntry_congr (f : Word) {k : Int}
    (h : s'.memRead (playAddress len o tbase s k) = s.memRead (playAddress len o tbase s k)) :
    s'.tableEntry tbase (tableIndex len (ifloor ((phasePath len f o s.phase s.srRecip).position len)) k) =
      s.tableEntry tbase (tableIndex len (ifloor ((phasePath len f o s.phase s.srRecip).position len)) k) :=
  congrArg f32 h

/-- The entry at the read position itself, which lies in the table. -/
theorem tableEntry_congr_zero (f : Word) (hpos : 0 < len) (hlen : len < 2 ^ 24)
    (h : s'.memRead (playAddress len o tbase s 0) = s.memRead (playAddress len o tbase s 0)) :
    s'.tableEntry tbase (ifloor ((phasePath len f o s.phase s.srRecip).position len)) =
      s.tableEntry tbase (ifloor ((phasePath len f o s.phase s.srRecip).position len)) := by
  have hinside : ifloor ((phasePath len f o s.phase s.srRecip).position len) < len := ifloor_wrap_lt _ hpos hlen
  have hentry := tableEntry_congr f h
  rwa [tableIndex_zero hinside] at hentry

end

/-- Settles O33: the entries a kind names are the words at its addresses; a failing PLAY does not commit. -/
theorem playReadsOnlyTheEntriesOfItsKind : Obligations.PlayReadsOnlyTheEntriesOfItsKind := by
  intro len tbase f o s s' t t' m n hlen hs ht
  refine ⟨fun h hread => ?_, fun h hread => ?_, fun h hread => ?_, fun i hi r h hr h0 h7 => ?_, fun hpos hfits k => ?_⟩
  · exact play_of_tmem_replaced hs ht h fun hpos _ => tableEntry_congr_zero f hpos hlen hread
  · simp only [List.forall_mem_cons, List.not_mem_nil, false_imp_iff, implies_true, and_true] at hread
    obtain ⟨h0, h1⟩ := hread
    refine play_of_tmem_replaced hs ht h fun hpos _ => ?_
    simp only [sampleAt, interpLinear, tableEntry_congr_zero f hpos hlen h0, tableEntry_congr f h1]
  · simp only [List.forall_mem_cons, List.not_mem_nil, false_imp_iff, implies_true, and_true] at hread
    obtain ⟨hprev, h0, h1, h2⟩ := hread
    refine play_of_tmem_replaced hs ht h fun hpos _ => ?_
    simp only [sampleAt, interpCubic, tableEntry_congr f hprev, tableEntry_congr_zero f hpos hlen h0,
      tableEntry_congr f h1, tableEntry_congr f h2]
  · obtain ⟨interp, hplay⟩ := exec_eq_play hi
    rw [hplay] at h ⊢
    refine play_of_tmem_replaced hs ht h fun _ hdone => ?_
    rw [hdone, playDone, playCommit_response] at hr
    cases hr
    split at h0
    · exact absurd rfl h0
    · rename_i hy
      simp [hy] at h7
  · have hlt := tableIndex_lt hpos (ifloor ((phasePath len f o s.phase s.srRecip).position len)) k
    rw [playAddress_eq len f]
    omega

/-! ### Zero frequency (R94) -/

/-- With frequency +0.0 or -0.0 the phase after the command is the phase before it. -/
theorem next_of_zero_frequency {len : Nat} {f o phase srRecip : Word} {m : Nat}
    (hf : f = 0x00000000#32 ∨ f = 0x80000000#32) (hphase : f32 phase = .finite false m)
    (hrecip : (f32 srRecip).isFinite = true) : (phasePath len f o phase srRecip).next = .finite false m := by
  have hzero : ∃ sign, f32 f = .finite sign 0 := by
    rcases hf with rfl | rfl
    · exact ⟨false, by decide⟩
    · exact ⟨true, by decide⟩
  obtain ⟨sign, hsign⟩ := hzero
  obtain ⟨sign', hscaled⟩ := fmul_zero_left (v := ofInt len) rfl sign
  obtain ⟨sign'', hinc⟩ := fmul_zero_left hrecip sign'
  simp only [phasePath, phaseIncrement, hsign, hscaled, hinc, hphase]
  exact fadd_zero_of_ne_negZero (f32_finite_isMag hphase) (by simp)

section
variable {interp : (Nat → Val) → Nat → Nat → Val → Val} {i : Instr} {len tbase : Nat} {f o : Word} {s t u : State}

/-- A PLAY with frequency zero keeps PHASE, by a failed check, or wraps it. -/
theorem phase_of_zero_frequency {m : Nat} (hlen : len < 2 ^ 24) (hf : f = 0x00000000#32 ∨ f = 0x80000000#32)
    (hphase : f32 s.phase = .finite false m) (hrecip : (f32 s.srRecip).isFinite = true)
    (h : play interp i len f o tbase s = .next t) :
    t.phase = s.phase ∨ (0 < len ∧ t.phase = (Val.finite false (m % (len * unitsPerOne))).bits) := by
  obtain ⟨-, ⟨c, -, rfl⟩ | ⟨hc, rfl⟩⟩ := play_cases h
  · exact .inl rfl
  · have hpos := pos_of_playCheck_eq_none hc
    refine .inr ⟨hpos, ?_⟩
    rw [playDone, playCommit_phase, PhasePath.advanced, next_of_zero_frequency hf hphase hrecip]
    exact congrArg Val.bits (wrap_of_isMag (f32_finite_isMag hphase) hpos hlen)

/-- A PLAY with frequency zero keeps a PHASE below the length. -/
theorem phase_kept_of_zero_frequency {m : Nat} (hlen : len < 2 ^ 24) (hf : f = 0x00000000#32 ∨ f = 0x80000000#32)
    (hphase : f32 s.phase = .finite false m) (hrecip : (f32 s.srRecip).isFinite = true)
    (hbelow : m < len * unitsPerOne) (h : play interp i len f o tbase s = .next t) : t.phase = s.phase := by
  rcases phase_of_zero_frequency hlen hf hphase hrecip h with hkept | ⟨-, hwrapped⟩
  · exact hkept
  · rw [hwrapped, Nat.mod_eq_of_lt hbelow, ← hphase]
    exact bits_f32 (by rw [hphase]; rfl)

/-- STATUS and the last response have no part in what a PLAY does. -/
theorem play_of_same_registers {s' t' : State} {flags : BitVec 7} {cause : BitVec 4} {r : Option Response}
    (hs : s' = { s with flags := flags, lastCause := cause, response := r })
    (h : play interp i len f o tbase s = .next t) (h' : play interp i len f o tbase s' = .next t') :
    t'.phase = t.phase ∧ t'.response = t.response := by
  have hlife : s'.lifecycle = s.lifecycle := hs ▸ rfl
  have hcheck : playCheck len f o tbase s' = playCheck len f o tbase s := hs ▸ rfl
  obtain ⟨hl, ⟨c, hc, rfl⟩ | ⟨hc, rfl⟩⟩ := play_cases h
  · cases (play_of_check_fails (hlife ▸ hl) (hcheck.trans hc)).symm.trans h'
    exact ⟨hs ▸ rfl, rfl⟩
  · cases (play_of_check_passes (hlife ▸ hl) (hcheck.trans hc)).symm.trans h'
    subst hs
    simp only [playDone, playCommit_phase, playCommit_response, true_and]
    rfl

end

section
variable {i : Instr} {len tbase : Nat} {f o : Word} {s t u : State}

/-- A PLAY after one that left PHASE as it was does the same again. -/
theorem exec_repeats (hi : i ∈ [Instr.playFloor len f o tbase, .playLinear len f o tbase, .playCubic len f o tbase])
    (h : exec i s = .next t) (h' : exec i t = .next u) (hphase : t.phase = s.phase) :
    u.phase = t.phase ∧ u.response = t.response := by
  obtain ⟨interp, hplay⟩ := exec_eq_play hi
  obtain ⟨r, -, hframe, -⟩ := playWritesOnlyPhaseAndStatus len tbase f o s t i hi h
  rw [hphase] at hframe
  exact play_of_same_registers hframe (hplay s ▸ h) (hplay t ▸ h')

/-- With frequency zero the second PLAY leaves the phase that the first one left: the first kept it, or wrapped it
below the length. -/
theorem second_phase_of_zero_frequency {m : Nat}
    (hi : i ∈ [Instr.playFloor len f o tbase, .playLinear len f o tbase, .playCubic len f o tbase])
    (hlen : len < 2 ^ 24) (hf : f = 0x00000000#32 ∨ f = 0x80000000#32) (hm : f32 s.phase = .finite false m)
    (hrecip : (f32 s.srRecip).isFinite = true) (h : exec i s = .next t) (h' : exec i t = .next u) :
    u.phase = t.phase := by
  obtain ⟨interp, hplay⟩ := exec_eq_play hi
  rcases phase_of_zero_frequency hlen hf hm hrecip (hplay s ▸ h) with hkept | ⟨hpos, hwrapped⟩
  · exact (exec_repeats hi h h' hkept).1
  · obtain ⟨r, -, hframe, -⟩ := playWritesOnlyPhaseAndStatus len tbase f o s t i hi h
    have hrecip' : t.srRecip = s.srRecip := by rw [hframe]
    have hm' : f32 t.phase = .finite false (m % (len * unitsPerOne)) := by
      rw [hwrapped, f32_bits ((f32_finite_isMag hm).mod_ofInt hpos hlen)]
    have hbelow : m % (len * unitsPerOne) < len * unitsPerOne := Nat.mod_lt m (Nat.mul_pos hpos unitsPerOne_pos)
    exact phase_kept_of_zero_frequency hlen hf hm' (hrecip' ▸ hrecip) hbelow (hplay t ▸ h')

end

/-- Settles O34: the second PLAY keeps the phase, and a PLAY that keeps the phase is repeated by the next one. -/
theorem zeroFrequencyRepeatsTheSample : Obligations.ZeroFrequencyRepeatsTheSample := by
  intro len tbase f o s t u v ⟨hphase, hrecip, _⟩ hpos hlen hf i hi hst htu huv
  obtain ⟨interp, hplay⟩ := exec_eq_play hi
  obtain ⟨m, hm, -⟩ := f32_of_lt hphase
  obtain ⟨k, hk, -⟩ := f32_of_lt hrecip
  have hfin : (f32 s.srRecip).isFinite = true := by rw [hk]; rfl
  have hsecond : u.phase = t.phase := second_phase_of_zero_frequency hi hlen hf hm hfin hst htu
  obtain ⟨hthird, hanswer⟩ := exec_repeats hi htu huv hsecond
  refine ⟨fun r hr hc => ?_, hsecond, hthird, hanswer, fun hbelow => ?_⟩
  · obtain ⟨-, hcommit⟩ := play_commits_of_cause (hplay s ▸ hst) hr hc
    rw [hcommit, PhasePath.advanced, next_of_zero_frequency hf hm hfin, hm]
  · have hlt : m < len * unitsPerOne := by
      have hunits : (f32 s.phase).units = m := by rw [hm]; rfl
      rw [hunits] at hbelow
      exact_mod_cast hbelow
    have hkept : t.phase = s.phase := phase_kept_of_zero_frequency hlen hf hm hfin hlt (hplay s ▸ hst)
    exact ⟨hkept, (exec_repeats hi hst htu hkept).2⟩

end Sys2Proof.Machine

/-! PROOFS. The control commands (spec/41_control.md R110 to R117): the valid sample rates and their reciprocals,
and the whole next state of each command. -/

namespace Sys2Proof.Machine

/-! ### Valid sample rates (R111) -/

/-- A positive finite value has the sign bit clear and some magnitude. -/
theorem exists_mag_of_units_pos {v : Val} (hfin : v.isFinite = true) (hpos : 0 < v.units) :
    ∃ m, v = .finite false m ∧ 0 < m := by
  obtain ⟨neg, m, rfl⟩ := exists_finite_of_isFinite hfin
  cases neg with
  | false => exact ⟨m, rfl, Int.natCast_pos.1 hpos⟩
  | true => exact absurd hpos (Int.neg_nonpos_of_nonneg (Int.natCast_nonneg m)).not_gt

theorem units_of_f32_finite_false {w : Word} {m : Nat} (h : f32 w = .finite false m) : (f32 w).units = m := by
  rw [h]; rfl

/-- The reciprocal of a positive rate is the number 1 squared, in units, over the rate, rounded once (R110). -/
theorem reciprocal_roundsOnce {sr : Word} {k : Nat} (hk : f32 sr = .finite false k) (hpos : 0 < k) :
    (reciprocal sr).roundsOnce (unitsPerOne * unitsPerOne : Nat) k := by
  rw [reciprocal, hk, one, ofInt]
  simpa only [if_true, one_mul] using fdiv_finite_roundsOnce false false (1 * unitsPerOne) hpos.ne'

/-- The overflow bound of a quotient with dividend 1 (R12) falls between the rates of 2^21 and 2^21 + 1 units. -/
theorem one_below_overflow_iff (k : Nat) :
    unitsPerOne * unitsPerOne < k * ((2 ^ 25 - 1) * 2 ^ 252) ↔ 2 ^ 21 < k := by
  have hone : unitsPerOne * unitsPerOne = 2 ^ 46 * 2 ^ 252 := by decide
  rw [hone, ← Nat.mul_assoc, Nat.mul_lt_mul_right (by positivity)]
  omega

theorem reciprocal_isFinite_iff {sr : Word} {k : Nat} (hk : f32 sr = .finite false k) (hpos : 0 < k) :
    (reciprocal sr).isFinite = true ↔ 2 ^ 21 < k := by
  rw [(reciprocal_roundsOnce hk hpos).1, Nat.abs_cast, ← Nat.cast_mul, Nat.cast_lt, one_below_overflow_iff]

/-- A rate is valid exactly when it is above 2^-128, which is 2^21 units. -/
theorem validSr_iff_units (sr : Word) : validSr sr = true ↔ (f32 sr).isFinite = true ∧ 2 ^ 21 < (f32 sr).units := by
  rw [validSr_iff]
  refine and_congr_right fun hfin => ?_
  constructor
  · rintro ⟨hpos, hrecip⟩
    obtain ⟨k, hk, hkpos⟩ := exists_mag_of_units_pos hfin hpos
    rw [units_of_f32_finite_false hk]
    exact_mod_cast (reciprocal_isFinite_iff hk hkpos).1 hrecip
  · intro habove
    have hpos : 0 < (f32 sr).units := lt_trans (by decide) habove
    obtain ⟨k, hk, hkpos⟩ := exists_mag_of_units_pos hfin hpos
    rw [units_of_f32_finite_false hk] at habove
    exact ⟨hpos, (reciprocal_isFinite_iff hk hkpos).2 (by exact_mod_cast habove)⟩

theorem reciprocal_units_pos {sr : Word} (hv : validSr sr = true) : 0 < (reciprocal sr).units := by
  obtain ⟨m, hm, -, hpos⟩ := reciprocal_of_validSr hv
  rw [hm]
  exact Int.natCast_pos.2 hpos

/-- Settles O17: the reciprocal overflows up to 2^21 units, and a valid rate's reciprocal is at least one unit. -/
theorem validRatesAreThoseAboveTwoToTheMinus128 : Obligations.ValidRatesAreThoseAboveTwoToTheMinus128 :=
  fun sr => ⟨validSr_iff_units sr, validSr_iff sr, reciprocal_units_pos⟩

/-! ### The patterns of the valid rates (R11, R111) -/

/-- Up to 2^23 a magnitude is subnormal and its own pattern, and both grow past 2^23 together. -/
theorem lt_magPattern_iff {n m : Nat} (hn : n < 2 ^ 23) : n < magPattern m ↔ n < m := by
  rcases Nat.eq_zero_or_pos (quantumExp m) with h0 | hpos
  · rw [magPattern, h0, Nat.zero_mul, Nat.zero_add, Nat.pow_zero, Nat.div_one]
  · have hm : 2 ^ 23 ≤ m :=
      (Nat.pow_le_pow_right (by decide) (Nat.le_add_left ..)).trans (two_pow_le_of_quantumExp_pos hpos)
    have hpattern : 2 ^ 23 ≤ magPattern m := (Nat.le_mul_of_pos_left _ hpos).trans (Nat.le_add_right ..)
    exact iff_of_true (hn.trans_le hpattern) (hn.trans_le hm)

theorem validSr_iff_pattern (sr : Word) :
    validSr sr = true ↔ 0x00200000 < sr.toNat ∧ sr.toNat < 0x7F800000 := by
  rw [validSr_iff_units]
  constructor
  · rintro ⟨hfin, habove⟩
    obtain ⟨m, hm, -⟩ := exists_mag_of_units_pos hfin (lt_trans (by decide) habove)
    have hmag := f32_finite_isMag hm
    have hpattern : sr.toNat = magPattern m := by
      rw [← bits_f32 hfin, hm, bits_toNat hmag, Bool.toNat_false, Nat.zero_mul, Nat.zero_add]
    rw [units_of_f32_finite_false hm] at habove
    rw [hpattern]
    exact ⟨(lt_magPattern_iff (by decide)).2 (by exact_mod_cast habove), magPattern_lt hmag⟩
  · rintro ⟨habove, hbelow⟩
    obtain ⟨m, hm, -, hpattern⟩ := f32_of_lt hbelow
    refine ⟨by rw [hm]; rfl, ?_⟩
    rw [← hpattern] at habove
    rw [units_of_f32_finite_false hm]
    exact_mod_cast (lt_magPattern_iff (by decide)).1 habove

theorem validSr_eq_false_iff_pattern (sr : Word) :
    validSr sr = false ↔ sr.toNat ≤ 0x00200000 ∨ 0x7F800000 ≤ sr.toNat := by
  rw [← Bool.not_eq_true, validSr_iff_pattern]
  omega

/-! ### The stored reciprocal (R12, R110, R112) -/

/-- No finite pattern times a valid rate is nearer to 1 than the stored reciprocal. -/
theorem reciprocal_bits_nearest {sr : Word} (hv : validSr sr = true) (x : Word) (hx : (f32 x).isFinite = true) :
    |(f32 (reciprocal sr).bits).units * (f32 sr).units - unitsPerOne * unitsPerOne| ≤
      |(f32 x).units * (f32 sr).units - unitsPerOne * unitsPerOne| := by
  obtain ⟨hfin, hpos, hrecip⟩ := (validSr_iff sr).1 hv
  obtain ⟨k, hk, hkpos⟩ := exists_mag_of_units_pos hfin hpos
  obtain ⟨-, -, hrounded⟩ := reciprocal_roundsOnce hk hkpos
  obtain ⟨hstored, -, hnearest⟩ := hrounded hrecip
  rw [hstored, units_of_f32_finite_false hk]
  exact_mod_cast (hnearest x hx).1

/-! ### The whole next state of each command (R110 to R117, R133) -/

section
variable (s : State)

theorem State.fail_sr : s.fail .sr = { s with
    flags := s.flags ||| 4#7, lastCause := 3#4, response := some ⟨0x00000000#32, 3#4⟩ } := rfl

theorem State.fail_state : s.fail .state = { s with
    flags := s.flags ||| 2#7, lastCause := 2#4, response := some ⟨0x00000000#32, 2#4⟩ } := rfl

variable {s} (sr w1 w2 w3 : Word)

theorem exec_init_of_valid (hv : validSr sr = true) : exec (.init sr w2 w3) s = .next { s with
    srRecip := (reciprocal sr).bits, phase := 0x00000000#32, lifecycle := .ready,
    response := some ⟨0x00000000#32, 0#4⟩ } := if_pos hv

theorem exec_init_of_invalid (hv : validSr sr = false) : exec (.init sr w2 w3) s = .next { s with
    srRecip := 0x00000000#32, phase := 0x00000000#32, lifecycle := .uninit, flags := s.flags ||| 4#7,
    lastCause := 3#4, response := some ⟨0x00000000#32, 3#4⟩ } := if_neg (Bool.eq_false_iff.1 hv)

theorem exec_setsr_of_uninit (hl : s.lifecycle = .uninit) : exec (.setsr sr w2 w3) s = .next (s.fail .state) := by
  simp only [exec, execSetsr, hl]

theorem exec_setsr_of_ready (hl : s.lifecycle = .ready) : exec (.setsr sr w2 w3) s =
    if validSr sr then .next ((s.setSrRecip (reciprocal sr).bits).respond 0x00000000#32)
    else .next (s.fail .sr) := by
  simp only [exec, execSetsr, hl]

theorem exec_release_of_uninit (hl : s.lifecycle = .uninit) :
    exec (.release w1 w2 w3) s = .next (s.fail .state) := by
  simp only [exec, execRelease, hl]

theorem exec_release_of_ready (hl : s.lifecycle = .ready) : exec (.release w1 w2 w3) s =
    .next ((s.setLifecycle .released).respond 0x00000000#32) := by
  simp only [exec, execRelease, hl]

theorem readRegister_of_not_released (i : Instr) (data : Word) (hl : s.lifecycle ≠ .released) :
    readRegister i data s = .next { s with response := some ⟨data, 0#4⟩ } := by
  rcases readRegister_cases i data s with ⟨-, h⟩ | ⟨hreleased, -⟩
  · exact h
  · exact absurd hreleased hl

end

/-- Settles O16: a pattern in the range is a valid rate, whose reciprocal INIT stores; any other is invalid. -/
theorem initStoresTheNearestReciprocalOrLeavesNoEngine :
    Obligations.InitStoresTheNearestReciprocalOrLeavesNoEngine := by
  intro sr w2 w3 s
  constructor
  · intro hrange
    have hv := (validSr_iff_pattern sr).2 hrange
    obtain ⟨hpos, hlt⟩ := reciprocal_bits hv
    exact ⟨_, exec_init_of_valid sr w2 w3 hv, hpos, hlt, reciprocal_bits_nearest hv⟩
  · intro hrange
    exact exec_init_of_invalid sr w2 w3 ((validSr_eq_false_iff_pattern sr).2 hrange)

/-- Settles O18: by STATE, and in READY by whether the pattern is a valid rate. -/
theorem setsrChangesTheReciprocalAlone : Obligations.SetsrChangesTheReciprocalAlone := by
  intro sr w2 w3 s
  refine ⟨fun hl habove hbelow => ?_, fun hl hrange => ?_, fun hl => ?_⟩
  · have hv := (validSr_iff_pattern sr).2 ⟨habove, hbelow⟩
    obtain ⟨hpos, hlt⟩ := reciprocal_bits hv
    exact ⟨_, (exec_setsr_of_ready sr w2 w3 hl).trans (if_pos hv), hpos, hlt, reciprocal_bits_nearest hv⟩
  · have hv := Bool.eq_false_iff.1 ((validSr_eq_false_iff_pattern sr).2 hrange)
    rw [exec_setsr_of_ready sr w2 w3 hl, if_neg hv, State.fail_sr]
  · rw [exec_setsr_of_uninit sr w2 w3 hl, State.fail_state]

/-- Settles O20: the answer is the STATUS word, whose fields are those of `statusWordLayout`. -/
theorem rdStatusAnswersTheStatusWord : Obligations.RdStatusAnswersTheStatusWord := by
  intro w1 w2 w3 s
  obtain ⟨hlayout, -⟩ := statusWordLayout s
  exact ⟨s.statusWord, rfl, hlayout⟩

/-- Settles O21: both are `readRegister` of their register. -/
theorem registerReadsAnswerTheRegisters : Obligations.RegisterReadsAnswerTheRegisters := by
  intro w1 w2 w3 s hl
  exact ⟨readRegister_of_not_released (.rdPhase w1 w2 w3) s.phase hl,
    readRegister_of_not_released (.rdSrrecip w1 w2 w3) s.srRecip hl⟩

/-- Settles O22: with the flags and LAST_CAUSE zero only the two bits of STATE are left in the word. -/
theorem clrstLeavesStateAloneInStatus : Obligations.ClrstLeavesStateAloneInStatus := by
  intro w1 w2 w3 s
  refine ⟨_, rfl, rfl, ?_⟩
  obtain ⟨hbefore, hcode⟩ := statusWordLayout s
  obtain ⟨hafter, -⟩ := statusWordLayout (s.clearCauses.respond 0x00000000#32)
  simp only [State.respond_lifecycle, State.respond_flags, State.respond_lastCause, State.clearCauses_lifecycle,
    State.clearCauses_flags, State.clearCauses_lastCause, BitVec.toNat_ofNat] at hafter
  omega

/-- Settles O23: in READY it writes STATE alone, in UNINIT it is `fail` with cause 2. -/
theorem releaseDestroysTheEngine : Obligations.ReleaseDestroysTheEngine := by
  intro w1 w2 w3 s
  refine ⟨exec_release_of_ready w1 w2 w3, fun hl => ?_⟩
  rw [exec_release_of_uninit w1 w2 w3 hl, State.fail_state]

end Sys2Proof.Machine

/-! PROOFS. Errors and the model fault (spec/60_exceptions.md R130 to R141): what a command's answer records in STATUS,
which causes each command can end with, which packets raise the model fault, and when a step goes on. -/

namespace Sys2Proof.Machine

/-! ### The answer of a command and the STATUS flags (R24, R25, R133) -/

/-- The three ways a command that gives a next state answers, with what each does to the flags and LAST_CAUSE:
`exec_answer`. -/
inductive CommandAnswer (i : Instr) (s t : State) : Prop where
  | succeeded (data : Word) (hi : i.mnemonic ≠ "CLRST") (hr : t.response = some ⟨data, 0#4⟩)
      (hflags : t.flags = s.flags) (hlast : t.lastCause = s.lastCause)
  | failed (c : Cause) (hi : i.mnemonic ≠ "CLRST") (hr : t.response = some ⟨0x00000000#32, c.code⟩)
      (hflags : t.flags = s.flags ||| c.flag) (hlast : t.lastCause = c.code)
  | cleared (hi : i.mnemonic = "CLRST") (hr : t.response = some ⟨0x00000000#32, 0#4⟩)
      (hflags : t.flags = 0#7) (hlast : t.lastCause = 0#4)

/-- Only CLRST clears; every other end of a command is a `respond` or a `fail`. -/
theorem exec_answer {i : Instr} {s t : State} (h : exec i s = .next t) : CommandAnswer i s t := by
  have hne : ∀ {ms : List String}, i.mnemonic ∈ ms → "CLRST" ∉ ms → i.mnemonic ≠ "CLRST" :=
    fun hi hout hclrst => hout (hclrst ▸ hi)
  cases exec_next h with
  | initDone _ _ _ hi _ ht => exact ht ▸ .succeeded _ (by simp [hi, Instr.mnemonic]) rfl rfl rfl
  | initFailed _ _ _ hi _ ht => exact ht ▸ .failed .sr (by simp [hi, Instr.mnemonic]) rfl rfl rfl
  | setsrDone _ _ _ hi _ _ ht => exact ht ▸ .succeeded _ (by simp [hi, Instr.mnemonic]) rfl rfl rfl
  | setsrFailed _ _ _ hi _ _ ht => exact ht ▸ .failed .sr (by simp [hi, Instr.mnemonic]) rfl rfl rfl
  | notConstructed hi _ ht => exact ht ▸ .failed .state (hne hi (by simp)) rfl rfl rfl
  | playFailed c hi _ _ ht => exact ht ▸ .failed c (hne hi (by simp)) rfl rfl rfl
  | playCommitted y w hi _ _ ht =>
    rcases playCommit_cases y w s with ⟨-, hc⟩ | ⟨-, hc⟩ <;> rw [ht, hc]
    · exact .succeeded y.bits (hne hi (by simp)) rfl rfl rfl
    · exact .failed .sample (hne hi (by simp)) rfl rfl rfl
  | statusRead hi ht => exact ht ▸ .succeeded _ (by simp [hi]) rfl rfl rfl
  | phaseRead hi _ ht => exact ht ▸ .succeeded _ (by simp [hi]) rfl rfl rfl
  | srRecipRead hi _ ht => exact ht ▸ .succeeded _ (by simp [hi]) rfl rfl rfl
  | cleared hi ht => exact ht ▸ .cleared hi rfl rfl rfl
  | destroyed hi _ ht => exact ht ▸ .succeeded _ (by simp [hi]) rfl rfl rfl

/-- The flags are STATUS[10:4] (R23). -/
theorem statusWord_getLsbD_flags (s : State) {n : Nat} (hlow : 4 ≤ n) (hhigh : n ≤ 10) :
    s.statusWord.getLsbD n = s.flags.getLsbD (n - 4) := by
  have hstate : ¬ n < 2 := by omega
  have hreserved : ¬ n - 2 < 2 := by omega
  have hflags : n - 4 < 7 := by omega
  simp only [State.statusWord, BitVec.getLsbD_append, hstate, hreserved, if_false, Nat.sub_sub]
  exact if_pos hflags

/-- The flag of a cause is bit `code - 1` of the field and no other (R23). -/
theorem Cause.flag_getLsbD_eq (c : Cause) {k : Nat} (hk : k < 7) :
    c.flag.getLsbD k = decide (k + 1 = c.code.toNat) := by
  have hbits : ∀ j : Fin 7, c.flag.getLsbD j = decide (j.val + 1 = c.code.toNat) := by cases c <;> decide
  exact hbits ⟨k, hk⟩

/-- Recording a cause sets STATUS[code + 3] and no other flag. -/
theorem statusWord_getLsbD_of_recorded {s t : State} {c : Cause} (hflags : t.flags = s.flags ||| c.flag) {n : Nat}
    (hlow : 4 ≤ n) (hhigh : n ≤ 10) :
    t.statusWord.getLsbD n = (s.statusWord.getLsbD n || decide (n = c.code.toNat + 3)) := by
  have hindex : n - 4 + 1 = c.code.toNat ↔ n = c.code.toNat + 3 := by omega
  rw [statusWord_getLsbD_flags t hlow hhigh, statusWord_getLsbD_flags s hlow hhigh, hflags, BitVec.getLsbD_or,
    c.flag_getLsbD_eq (by omega), decide_eq_decide.2 hindex]

/-- Settles O42: by the three answers of `exec_answer`. -/
theorem failuresAreRecordedInStatus : Obligations.FailuresAreRecordedInStatus := by
  intro i s t r h hr
  cases exec_answer h with
  | succeeded data hi hanswer hflags hlast =>
    cases hanswer.symm.trans hr
    exact ⟨fun hc => absurd rfl hc, fun _ _ => ⟨hflags, hlast⟩, fun hclrst => absurd hclrst hi⟩
  | failed c hi hanswer hflags hlast =>
    cases hanswer.symm.trans hr
    refine ⟨fun _ => ⟨c.code_le, rfl, hlast, fun n => statusWord_getLsbD_of_recorded hflags⟩, fun h0 => ?_,
      fun hclrst => absurd hclrst hi⟩
    exact absurd h0 c.code_ne_zero
  | cleared hi hanswer hflags hlast =>
    cases hanswer.symm.trans hr
    exact ⟨fun hc => absurd rfl hc, fun _ hne => absurd hi hne, fun _ => ⟨rfl, hflags, hlast⟩⟩

/-! ### The causes of each command (R131) -/

/-- R131's table, illegal words apart: the command `i` can end with the cause code `c`. -/
def CanEndWith (i : Instr) (c : BitVec 4) : Prop :=
  (i.mnemonic = "INIT" → c.toNat ∈ [0, 3]) ∧
  (i.mnemonic = "SETSR" → c.toNat ∈ [0, 2, 3]) ∧
  (i.mnemonic ∈ ["PLAY.FLOOR", "PLAY.LINEAR", "PLAY.CUBIC"] → c.toNat ∈ [0, 2, 4, 5, 6, 7]) ∧
  (i.mnemonic ∈ ["RD.STATUS", "RD.PHASE", "RD.SRRECIP", "CLRST"] → c.toNat = 0) ∧
  (i.mnemonic = "RELEASE" → c.toNat ∈ [0, 2])

/-- Every command can succeed. -/
theorem canEndWith_zero (i : Instr) : CanEndWith i 0#4 := by
  simp [CanEndWith]

theorem canEndWith_of_play {i : Instr} {c : BitVec 4}
    (hi : i.mnemonic ∈ ["PLAY.FLOOR", "PLAY.LINEAR", "PLAY.CUBIC"]) (hc : c.toNat ∈ [0, 2, 4, 5, 6, 7]) :
    CanEndWith i c := by
  simp only [List.mem_cons, List.not_mem_nil, or_false] at hi
  rcases hi with hi | hi | hi <;> simpa [CanEndWith, hi] using hc

/-- The commands that need READY can fail with cause 2. -/
theorem canEndWith_state {i : Instr}
    (hi : i.mnemonic ∈ ["SETSR", "PLAY.FLOOR", "PLAY.LINEAR", "PLAY.CUBIC", "RELEASE"]) :
    CanEndWith i Cause.state.code := by
  simp only [List.mem_cons, List.not_mem_nil, or_false] at hi
  rcases hi with hi | hi | hi | hi | hi <;> simp [CanEndWith, hi, Cause.code]

theorem toNat_code_of_playFailed {c : Cause} (hc : c ∈ [Cause.len0, .range, .numeric]) :
    c.code.toNat ∈ [0, 2, 4, 5, 6, 7] := by
  simp only [List.mem_cons, List.not_mem_nil, or_false] at hc
  rcases hc with rfl | rfl | rfl <;> decide

/-- The cause that a command answers is one of its row in R131's table. -/
theorem exec_cause {i : Instr} {s t : State} (h : exec i s = .next t) :
    ∃ r, t.response = some r ∧ CanEndWith i r.cause := by
  cases exec_next h with
  | initFailed _ _ _ hi _ ht => exact ht ▸ ⟨_, rfl, by simp [CanEndWith, hi, Instr.mnemonic, Cause.code]⟩
  | setsrFailed _ _ _ hi _ _ ht => exact ht ▸ ⟨_, rfl, by simp [CanEndWith, hi, Instr.mnemonic, Cause.code]⟩
  | notConstructed hi _ ht => exact ht ▸ ⟨_, rfl, canEndWith_state hi⟩
  | playFailed c hi _ hc ht => exact ht ▸ ⟨_, rfl, canEndWith_of_play hi (toNat_code_of_playFailed hc)⟩
  | playCommitted y w hi _ _ ht =>
    rcases playCommit_cases y w s with ⟨-, hc⟩ | ⟨-, hc⟩ <;> rw [ht, hc]
    · exact ⟨_, rfl, canEndWith_zero i⟩
    · exact ⟨_, rfl, canEndWith_of_play hi (by decide)⟩
  | _ => subst ‹t = _›; exact ⟨_, rfl, canEndWith_zero i⟩

/-! ### The model fault (R131, R136) -/

/-- The commands that are not defined in RELEASED (R136). -/
def engineCommands : List String :=
  ["SETSR", "PLAY.FLOOR", "PLAY.LINEAR", "PLAY.CUBIC", "RD.PHASE", "RD.SRRECIP", "RELEASE"]

theorem definedInReleased_of_error {p : Packet} {e : DecodeError} (hd : decode p = .error e) :
    definedInReleased p = true := by
  simp only [definedInReleased, hd]

theorem definedInReleased_iff_of_decode {p : Packet} {i : Instr} (hd : decode p = .ok i) :
    definedInReleased p = true ↔ i.mnemonic ∉ engineCommands := by
  rw [definedInReleased, hd]
  cases i <;> simp [Instr.mnemonic, engineCommands]

/-- In RELEASED a command that is not defined there raises the model fault with its own packet. -/
theorem exec_of_released {i : Instr} {s : State} (hl : s.lifecycle = .released) (hi : i.mnemonic ∈ engineCommands) :
    exec i s = .fault (.useAfterRelease (s.markFaulted (encode i))) := by
  cases i with
  | init => simp [Instr.mnemonic, engineCommands] at hi
  | rdStatus => simp [Instr.mnemonic, engineCommands] at hi
  | clrst => simp [Instr.mnemonic, engineCommands] at hi
  | playFloor => simp only [exec, execPlayFloor, play, hl, raiseFault]
  | playLinear => simp only [exec, execPlayLinear, play, hl, raiseFault]
  | playCubic => simp only [exec, execPlayCubic, play, hl, raiseFault]
  | setsr => simp only [exec, execSetsr, hl, raiseFault]
  | rdPhase => simp only [exec, execRdPhase, readRegister, hl, raiseFault]
  | rdSrrecip => simp only [exec, execRdSrrecip, readRegister, hl, raiseFault]
  | release => simp only [exec, execRelease, hl, raiseFault]

/-- INIT, RD.STATUS and CLRST give a next state in every STATE. -/
theorem exec_of_not_engineCommand {i : Instr} (hi : i.mnemonic ∉ engineCommands) (s : State) :
    ∃ t, exec i s = .next t := by
  cases i with
  | init sr w2 w3 => rcases execInit_cases sr w2 w3 s with ⟨-, he⟩ | ⟨-, he⟩ <;> exact ⟨_, he⟩
  | rdStatus => exact ⟨_, rfl⟩
  | clrst => exact ⟨_, rfl⟩
  | _ => simp [Instr.mnemonic, engineCommands] at hi

/-- Outside RELEASED every command gives a next state. -/
theorem exec_of_ne_released (i : Instr) {s : State} (hl : s.lifecycle ≠ .released) : ∃ t, exec i s = .next t := by
  cases i with
  | playFloor => exact ⟨_, play_eq hl⟩
  | playLinear => exact ⟨_, play_eq hl⟩
  | playCubic => exact ⟨_, play_eq hl⟩
  | setsr sr w2 w3 =>
    cases hs : s.lifecycle with
    | released => exact absurd hs hl
    | uninit => exact ⟨_, exec_setsr_of_uninit sr w2 w3 hs⟩
    | ready =>
      rw [exec_setsr_of_ready sr w2 w3 hs]
      split <;> exact ⟨_, rfl⟩
  | rdPhase => exact ⟨_, readRegister_of_not_released _ _ hl⟩
  | rdSrrecip => exact ⟨_, readRegister_of_not_released _ _ hl⟩
  | release w1 w2 w3 =>
    cases hs : s.lifecycle with
    | released => exact absurd hs hl
    | uninit => exact ⟨_, exec_release_of_uninit w1 w2 w3 hs⟩
    | ready => exact ⟨_, exec_release_of_ready w1 w2 w3 hs⟩
  | _ => exact exec_of_not_engineCommand (by simp [Instr.mnemonic, engineCommands]) s

/-- A command gives a next state, or raises the model fault in RELEASED. -/
theorem exec_cases (i : Instr) (s : State) :
    (∃ t, exec i s = .next t) ∨
    (s.lifecycle = .released ∧ i.mnemonic ∈ engineCommands ∧
      exec i s = .fault (.useAfterRelease (s.markFaulted (encode i)))) := by
  by_cases hl : s.lifecycle = .released
  · by_cases hi : i.mnemonic ∈ engineCommands
    · exact .inr ⟨hl, hi, exec_of_released hl hi⟩
    · exact .inl (exec_of_not_engineCommand hi s)
  · exact .inl (exec_of_ne_released i hl)

/-- Settles O43: the causes by `exec_cause`, the faults and that there is no refusal by `exec_cases`. -/
theorem causesAndFaultsOfEachCommand : Obligations.CausesAndFaultsOfEachCommand := by
  refine ⟨fun i s t h => exec_cause h, fun i s e h => ?_, fun i s e h => ?_⟩
  · rcases exec_cases i s with ⟨t, hnext⟩ | ⟨hl, hi, -⟩
    · rw [hnext] at h
      cases h
    · exact ⟨hl, hi⟩
  · rcases exec_cases i s with ⟨t, hnext⟩ | ⟨-, -, hfault⟩
    · rw [hnext] at h
      cases h
    · rw [hfault] at h
      cases h

/-! ### When a step goes on (R131, R136, R141, R156) -/

theorem exec_goes_on_iff (i : Instr) (s : State) :
    (∃ t, exec i s = .next t) ↔ s.lifecycle ≠ .released ∨ i.mnemonic ∉ engineCommands := by
  constructor
  · rintro ⟨t, hnext⟩
    by_contra hboth
    obtain ⟨hl, hi⟩ := not_or.1 hboth
    rw [exec_of_released (not_not.1 hl) (not_not.1 hi)] at hnext
    cases hnext
  · rintro (hl | hi)
    · exact exec_of_ne_released i hl
    · exact exec_of_not_engineCommand hi s

theorem performPacket_goes_on_iff (p : Packet) (s : State) :
    (∃ t, performPacket p s = .next t) ↔ s.lifecycle ≠ .released ∨ definedInReleased p = true := by
  rcases performPacket_cases p s with ⟨i, hd, hp⟩ | ⟨e, hd, hp⟩
  · rw [hp, exec_goes_on_iff, definedInReleased_iff_of_decode hd]
  · exact iff_of_true ⟨_, hp⟩ (.inr (definedInReleased_of_error hd))

theorem hostTableWrite_goes_on_iff (a : Nat) (w : Word) (s : State) :
    (∃ t, hostTableWrite a w s = .next t) ↔ a < s.tmemWords := by
  rcases hostTableWrite_cases a w s with ⟨ha, hw⟩ | ⟨ha, hw⟩ <;> rw [hw]
  · exact iff_of_true ⟨_, rfl⟩ ha
  · exact iff_of_false (fun ⟨_, hnext⟩ => nomatch hnext) ha.not_gt

/-- An interaction goes on exactly when the host keeps its duty in it. -/
theorem performInput_goes_on_iff (input : HostInput) (s : State) :
    (∃ t, performInput input s = .next t) ↔ input.dutiful s.tmemWords s.lifecycle = true := by
  cases input with
  | command p =>
    rw [HostInput.dutiful, Bool.or_eq_true, decide_eq_true_eq]
    exact performPacket_goes_on_iff p s
  | tableWrite a w =>
    rw [HostInput.dutiful, decide_eq_true_eq]
    exact hostTableWrite_goes_on_iff a w s
  | reset cut => exact iff_of_true ⟨_, rfl⟩ rfl

theorem step_of_inputs_nil {s : State} (hf : s.faulted = none) (hin : s.inputs = []) :
    step s = .next s.noResponse := by
  simp only [step, hf, stepPort, hin]

/-- Settles O46: an unmarked step is idle or performs the next interaction, as `performInput_goes_on_iff` says. -/
theorem stepStopsOnlyForAnUndutifulHost : Obligations.StepStopsOnlyForAnUndutifulHost := by
  intro s
  constructor
  · rintro ⟨t, h⟩
    have hf : s.faulted = none := (step_next h).1
    refine ⟨hf, fun input rest hin => ?_⟩
    rw [step_of_inputs_cons hf hin] at h
    exact (performInput_goes_on_iff input (s.setInputs rest)).1 ⟨t, h⟩
  · rintro ⟨hf, hdutiful⟩
    cases hin : s.inputs with
    | nil => exact ⟨_, step_of_inputs_nil hf hin⟩
    | cons input rest =>
      rw [step_of_inputs_cons hf hin]
      exact (performInput_goes_on_iff input (s.setInputs rest)).2 (hdutiful input rest hin)

/-- A use of the released engine is a command of `engineCommands`, and its step faults with the very packet of the
host, because a legal packet is its instruction's packet. -/
theorem step_of_use_after_release {p : Packet} {rest : List HostInput} {s : State} (hf : s.faulted = none)
    (hl : s.lifecycle = .released) (hin : s.inputs = .command p :: rest) (hp : definedInReleased p = false) :
    step s = .fault (.useAfterRelease ((s.setInputs rest).markFaulted p)) := by
  cases hd : decode p with
  | error e => simp [definedInReleased_of_error hd] at hp
  | ok i =>
    have hi : i.mnemonic ∈ engineCommands := by
      by_contra hout
      simp [(definedInReleased_iff_of_decode hd).2 hout] at hp
    rw [step_of_command hf hin hd, exec_of_released (s := s.setInputs rest) hl hi, encode_of_decode hd]

/-- Settles O44: a use of the released engine faults, its marked state stops again, and every other packet is dutiful
in RELEASED. -/
theorem useAfterReleaseFaultsWithThePacketRecorded : Obligations.UseAfterReleaseFaultsWithThePacketRecorded := by
  intro p rest s hf hl hin
  refine ⟨fun hp => ?_, fun hp => ?_⟩
  · exact ⟨_, step_of_use_after_release hf hl hin hp, rfl, step_of_faulted (State.markFaulted_faulted _ p)⟩
  · have hgoes : ∃ t, performInput (.command p) (s.setInputs rest) = .next t :=
      (performPacket_goes_on_iff p (s.setInputs rest)).2 (.inr hp)
    rw [← step_of_inputs_cons hf hin] at hgoes
    obtain ⟨t, ht⟩ := hgoes
    exact ⟨t, ht, (step_faulted ht).trans hf⟩

/-- Settles O10: with no interaction left the step only drops the last response. -/
theorem idleBlockHoldsItsState : Obligations.IdleBlockHoldsItsState := fun _ => step_of_inputs_nil

end Sys2Proof.Machine

/-! PROOFS. Reset and the host's duties (spec/70_reset_and_hazards.md R150 to R156): the state after the reset input,
and the run of a host that keeps its duties. -/

namespace Sys2Proof.Machine

/-! ### The reset input (R150 to R152) -/

/-- A step of the reset input is the reset of the registers, whatever command it cuts. -/
theorem step_of_reset {s : State} {cut : Option Packet} {rest : List HostInput} (hf : s.faulted = none)
    (hin : s.inputs = .reset cut :: rest) : step s = .next (s.setInputs rest).resetRegisters :=
  step_of_inputs_cons hf hin

theorem State.resetRegisters_statusWord (s : State) : s.resetRegisters.statusWord = 0x00000000#32 := by
  rw [State.statusWord, State.resetRegisters_lastCause, State.resetRegisters_flags, State.resetRegisters_lifecycle]
  decide

/-- Settles O14: the next state is `step_of_reset`'s, and the reset of the registers leaves TMEM and its two
parameters. -/
theorem resetWinsOverTheCommandInProgress : Obligations.ResetWinsOverTheCommandInProgress := by
  intro cut rest s hf hin
  exact ⟨_, step_of_reset hf hin, rfl, rfl, rfl, State.resetRegisters_statusWord _, rfl, rfl, hf, rfl,
    State.memByte_eq_of_mem rfl rfl⟩

/-! ### The run of a dutiful host (R136, R156) -/

/-- A dutiful interaction is a step that records no fault, moves STATE as the lifecycle says, and leaves the other
interactions and the size of TMEM, on which the duties still to come depend. -/
theorem step_of_dutiful {s : State} {input : HostInput} {rest : List HostInput} (hf : s.faulted = none)
    (hin : s.inputs = input :: rest) (hd : input.dutiful s.tmemWords s.lifecycle = true) :
    ∃ t, step s = .next t ∧ t.faulted = none ∧ t.inputs = rest ∧ t.lifecycle = s.lifecycle.after input ∧
      t.tmemWords = s.tmemWords := by
  have hgoes : ∃ t, performInput input (s.setInputs rest) = .next t :=
    (performInput_goes_on_iff input (s.setInputs rest)).2 hd
  rw [← step_of_inputs_cons hf hin] at hgoes
  obtain ⟨t, ht⟩ := hgoes
  obtain ⟨hlife, hrest⟩ := (stateFollowsTheLifecycle s t ht).2 input rest hin
  obtain ⟨htop, -, -⟩ := step_tmem ht
  exact ⟨t, ht, (step_faulted ht).trans hf, hrest, hlife, State.tmemWords_eq_of_tmemTop htop⟩

/-- The run over a dutiful list, by induction on the list: each step is `step_of_dutiful`'s. -/
theorem run_of_dutifulScript (script : List HostInput) {s : State} (hf : s.faulted = none) (hin : s.inputs = script)
    (hd : dutifulScript s.tmemWords s.lifecycle script = true) :
    ∃ t, Host.Core.run Sys2Proof.core script.length s = .next t ∧ t.faulted = none ∧ t.inputs = [] ∧
      t.lifecycle = script.foldl Lifecycle.after s.lifecycle := by
  induction script generalizing s with
  | nil => exact ⟨s, rfl, hf, hin, rfl⟩
  | cons input rest ih =>
    rw [dutifulScript, Bool.and_eq_true] at hd
    obtain ⟨hfirst, hlater⟩ := hd
    obtain ⟨t, hstep, htf, htin, hlife, hwords⟩ := step_of_dutiful hf hin hfirst
    rw [← hwords, ← hlife] at hlater
    obtain ⟨u, hrun, huf, huin, hend⟩ := ih htf htin hlater
    rw [hlife] at hend
    exact ⟨u, (run_succ hstep).trans hrun, huf, huin, hend⟩

/-- Settles O57: the end of the run is `run_of_dutifulScript`'s, and a run has one end. -/
theorem aDutifulHostNeverMeetsAFault : Obligations.ADutifulHostNeverMeetsAFault := by
  intro s hf hd
  obtain ⟨t, hrun, htf, htin, hlife⟩ := run_of_dutifulScript s.inputs hf rfl hd
  refine ⟨⟨t, hrun, htf⟩, fun u hu => ?_⟩
  obtain rfl : t = u := Host.Outcome.next.inj (hrun.symm.trans hu)
  exact ⟨htin, hlife⟩

end Sys2Proof.Machine
